-- ==== Sys2Proof/Word.lean ====
section
/-! DEFINITION. The widths of the machine's values (R5, R20, R91). Every value is an unsigned bit vector (R8). -/

namespace Sys2Proof

/-- 8 bits: a general register, `DT`, `ST`, `SP`, a memory byte, the immediate `nn` (R5, R91). -/
abbrev Byte := BitVec 8

/-- 16 bits: `PC`, `I`, a call-stack entry, an instruction word (R5, R90). -/
abbrev Word := BitVec 16

/-- 4 bits: a field `x` or `y` that names a general register, and `WAITREG` (R20, R31, R91). -/
abbrev RegIx := BitVec 4

/-- 4 bits: the field `n`, or the opcode family `op` (R91). -/
abbrev Nibble := BitVec 4

/-- 12 bits: the field `nnn` (R91). -/
abbrev Addr12 := BitVec 12

/-- The sixteen keys as one sample, bit `k` for key `k` (R33). -/
abbrev Keys := BitVec 16

end Sys2Proof
end

