-- ==== Sys2Proof/Syntax.lean ====
section
/-! DEFINITION. The 34 instructions, one constructor per row of the opcode map (R95), in the table's order. A field has
exactly the width it has in the word (R91, R93). -/

namespace Sys2Proof

/-- An instruction of the opcode map R95. Each docstring gives the pattern and the rule. -/
inductive Instr where
  /-- `00E0` CLS (R210). -/
  | cls
  /-- `00EE` RET (R140). -/
  | ret
  /-- `1nnn` JP nnn (R141). -/
  | jp (nnn : Addr12)
  /-- `2nnn` CALL nnn (R142). -/
  | call (nnn : Addr12)
  /-- `3xnn` SE Vx, nn (R143). -/
  | seImm (x : RegIx) (nn : Byte)
  /-- `4xnn` SNE Vx, nn (R144). -/
  | sneImm (x : RegIx) (nn : Byte)
  /-- `5xy0` SE Vx, Vy (R145). -/
  | seReg (x y : RegIx)
  /-- `6xnn` LD Vx, nn (R160). -/
  | ldImm (x : RegIx) (nn : Byte)
  /-- `7xnn` ADD Vx, nn (R161). -/
  | addImm (x : RegIx) (nn : Byte)
  /-- `8xy0` LD Vx, Vy (R162). -/
  | ldReg (x y : RegIx)
  /-- `8xy1` OR Vx, Vy (R163). -/
  | orReg (x y : RegIx)
  /-- `8xy2` AND Vx, Vy (R164). -/
  | andReg (x y : RegIx)
  /-- `8xy3` XOR Vx, Vy (R165). -/
  | xorReg (x y : RegIx)
  /-- `8xy4` ADD Vx, Vy (R166). -/
  | addReg (x y : RegIx)
  /-- `8xy5` SUB Vx, Vy (R167). -/
  | subReg (x y : RegIx)
  /-- `8xy6` SHR Vx (R168). The field `y` is in the word and is not used. -/
  | shr (x y : RegIx)
  /-- `8xy7` SUBN Vx, Vy (R169). -/
  | subnReg (x y : RegIx)
  /-- `8xyE` SHL Vx (R170). The field `y` is in the word and is not used. -/
  | shl (x y : RegIx)
  /-- `9xy0` SNE Vx, Vy (R146). -/
  | sneReg (x y : RegIx)
  /-- `Annn` LD I, nnn (R190). -/
  | ldI (nnn : Addr12)
  /-- `Bnnn` JP V0, nnn (R147). -/
  | jpV0 (nnn : Addr12)
  /-- `Cxnn` RND Vx, nn (R171). -/
  | rnd (x : RegIx) (nn : Byte)
  /-- `Dxyn` DRW Vx, Vy, n (R211). -/
  | drw (x y : RegIx) (n : Nibble)
  /-- `Ex9E` SKP Vx (R220). -/
  | skp (x : RegIx)
  /-- `ExA1` SKNP Vx (R221). -/
  | sknp (x : RegIx)
  /-- `Fx07` LD Vx, DT (R223). -/
  | ldVxDT (x : RegIx)
  /-- `Fx0A` LD Vx, K (R222). -/
  | ldVxK (x : RegIx)
  /-- `Fx15` LD DT, Vx (R224). -/
  | ldDTVx (x : RegIx)
  /-- `Fx18` LD ST, Vx (R225). -/
  | ldSTVx (x : RegIx)
  /-- `Fx1E` ADD I, Vx (R191). -/
  | addI (x : RegIx)
  /-- `Fx29` LD F, Vx (R192). -/
  | ldF (x : RegIx)
  /-- `Fx33` LD B, Vx (R193). -/
  | ldB (x : RegIx)
  /-- `Fx55` LD [I], Vx (R194). -/
  | stRegs (x : RegIx)
  /-- `Fx65` LD Vx, [I] (R195). -/
  | ldRegs (x : RegIx)
  deriving DecidableEq, Repr

end Sys2Proof
end

