-- ==== Sys2Proof/WellFormed.lean ====
section
/-! DEFINITION. What is well formed. Every term of `Instr` is (R93), so the checks are on instruction words: the legal
words are those that the table of R96 does not list, written here with the arithmetic of R7 and apart from the decoder,
so that the two can be compared. -/

namespace Sys2Proof

/-- R93: a range check on operands "has nothing to reject here: every field is exactly as wide as what it feeds", so
every term is well formed (log 20). -/
def Instr.wellFormed (_ : Instr) : Bool := true

/-- R96, row `0`: legal only with `nnn` in `0x0E0, 0x0EE`. -/
def wellFormedSystem (w : Nat) : Bool := w % 0x1000 == 0x0E0 || w % 0x1000 == 0x0EE

/-- R96, rows `5` and `9`: legal only with low nibble 0. -/
def wellFormedSkip (w : Nat) : Bool := w % 0x10 == 0

/-- R96, row `8`: the low nibbles `8 9 A B C D F` are illegal. -/
def wellFormedAlu (w : Nat) : Bool := !(w % 0x10 ∈ [0x8, 0x9, 0xA, 0xB, 0xC, 0xD, 0xF])

/-- R96, row `E`: legal only with low byte `9E` or `A1`. -/
def wellFormedKey (w : Nat) : Bool := w % 0x100 ∈ [0x9E, 0xA1]

/-- R96, row `F`: the nine legal low bytes. -/
def wellFormedMisc (w : Nat) : Bool :=
  w % 0x100 ∈ [0x07, 0x0A, 0x15, 0x18, 0x1E, 0x29, 0x33, 0x55, 0x65]

/-- R96: whether an instruction word is legal, from the table of illegal words. Families `1 2 3 4 6 7 A B C D` have no
illegal word. -/
def wordWellFormed (word : Word) : Bool :=
  let w := word.toNat
  match w / 0x1000 with
  | 0x0 => wellFormedSystem w
  | 0x5 => wellFormedSkip w
  | 0x8 => wellFormedAlu w
  | 0x9 => wellFormedSkip w
  | 0xE => wellFormedKey w
  | 0xF => wellFormedMisc w
  | _ => true

end Sys2Proof
end

