-- ==== Sys2Proof/Decode.lean ====
section
/-! DEFINITION. Field positions (R91), byte order (R65), the two-level decoder (R94), the opcode map as rows of mask and
match (R95), the encoder, and the host's `decodeTableWord`. Nothing here depends on the machine's state (R94). -/

namespace Sys2Proof

/-! ## Fields and byte order -/

/-- `op = W[15:12]`. -/
def fieldOp (w : Word) : Nibble := w.extractLsb' 12 4

/-- `x = W[11:8]`. -/
def fieldX (w : Word) : RegIx := w.extractLsb' 8 4

/-- `y = W[7:4]`. -/
def fieldY (w : Word) : RegIx := w.extractLsb' 4 4

/-- `n = W[3:0]`. -/
def fieldN (w : Word) : Nibble := w.extractLsb' 0 4

/-- `nn = W[7:0]`. -/
def fieldNN (w : Word) : Byte := w.extractLsb' 0 8

/-- `nnn = W[11:0]`. -/
def fieldNNN (w : Word) : Addr12 := w.extractLsb' 0 12

/-- R65, R90: the byte at the lower address is the more significant one. -/
def wordOfBytes (high low : Byte) : Word := high ++ low

/-- `W[15:8]`, the byte at the lower address. -/
def highByte (w : Word) : Byte := w.extractLsb' 8 8

/-- `W[7:0]`, the byte at the higher address. -/
def lowByte (w : Word) : Byte := w.extractLsb' 0 8

/-- `zext_16(nnn)` (R93). -/
def zext16 (nnn : Addr12) : Word := nnn.setWidth 16

/-! ## Decoding -/

/-- Why a byte string is no instruction. Each of the six families with illegal words has a name of its own (R96). -/
inductive DecodeReject where
  /-- A word of family `0` other than `00E0` and `00EE`. -/
  | system (w : Word)
  /-- `5xyN` with `N` not 0. -/
  | skipEqual (w : Word)
  /-- `8xyN` with `N` in `8 9 A B C D F`. -/
  | alu (w : Word)
  /-- `9xyN` with `N` not 0. -/
  | skipDiffer (w : Word)
  /-- `ExNN` with `NN` neither `9E` nor `A1`. -/
  | key (w : Word)
  /-- `FxNN` with `NN` outside the nine sub-opcodes. -/
  | misc (w : Word)
  /-- Fewer than the two bytes of a word. -/
  | truncated
  deriving DecidableEq, Repr

/-- Family `0` matches the whole word (R94). -/
def decodeSystem (w : Word) : Except DecodeReject Instr :=
  match fieldNNN w with
  | 0x0E0#12 => .ok .cls
  | 0x0EE#12 => .ok .ret
  | _ => .error (.system w)

/-- Family `8` selects on `n` (R94). -/
def decodeAlu (w : Word) : Except DecodeReject Instr :=
  match fieldN w with
  | 0x0#4 => .ok (.ldReg (fieldX w) (fieldY w))
  | 0x1#4 => .ok (.orReg (fieldX w) (fieldY w))
  | 0x2#4 => .ok (.andReg (fieldX w) (fieldY w))
  | 0x3#4 => .ok (.xorReg (fieldX w) (fieldY w))
  | 0x4#4 => .ok (.addReg (fieldX w) (fieldY w))
  | 0x5#4 => .ok (.subReg (fieldX w) (fieldY w))
  | 0x6#4 => .ok (.shr (fieldX w) (fieldY w))
  | 0x7#4 => .ok (.subnReg (fieldX w) (fieldY w))
  | 0xE#4 => .ok (.shl (fieldX w) (fieldY w))
  | _ => .error (.alu w)

/-- Family `E` selects on `nn` (R94). -/
def decodeKey (w : Word) : Except DecodeReject Instr :=
  match fieldNN w with
  | 0x9E#8 => .ok (.skp (fieldX w))
  | 0xA1#8 => .ok (.sknp (fieldX w))
  | _ => .error (.key w)

/-- Family `F` selects on `nn` (R94). -/
def decodeMisc (w : Word) : Except DecodeReject Instr :=
  match fieldNN w with
  | 0x07#8 => .ok (.ldVxDT (fieldX w))
  | 0x0A#8 => .ok (.ldVxK (fieldX w))
  | 0x15#8 => .ok (.ldDTVx (fieldX w))
  | 0x18#8 => .ok (.ldSTVx (fieldX w))
  | 0x1E#8 => .ok (.addI (fieldX w))
  | 0x29#8 => .ok (.ldF (fieldX w))
  | 0x33#8 => .ok (.ldB (fieldX w))
  | 0x55#8 => .ok (.stRegs (fieldX w))
  | 0x65#8 => .ok (.ldRegs (fieldX w))
  | _ => .error (.misc w)

/-- R94, R95: dispatch on `op`, then inside a family. All sixteen values of `op` are families; the last arm is `F`. -/
def decode (w : Word) : Except DecodeReject Instr :=
  match fieldOp w with
  | 0x0#4 => decodeSystem w
  | 0x1#4 => .ok (.jp (fieldNNN w))
  | 0x2#4 => .ok (.call (fieldNNN w))
  | 0x3#4 => .ok (.seImm (fieldX w) (fieldNN w))
  | 0x4#4 => .ok (.sneImm (fieldX w) (fieldNN w))
  | 0x5#4 => if fieldN w = 0#4 then .ok (.seReg (fieldX w) (fieldY w)) else .error (.skipEqual w)
  | 0x6#4 => .ok (.ldImm (fieldX w) (fieldNN w))
  | 0x7#4 => .ok (.addImm (fieldX w) (fieldNN w))
  | 0x8#4 => decodeAlu w
  | 0x9#4 => if fieldN w = 0#4 then .ok (.sneReg (fieldX w) (fieldY w)) else .error (.skipDiffer w)
  | 0xA#4 => .ok (.ldI (fieldNNN w))
  | 0xB#4 => .ok (.jpV0 (fieldNNN w))
  | 0xC#4 => .ok (.rnd (fieldX w) (fieldNN w))
  | 0xD#4 => .ok (.drw (fieldX w) (fieldY w) (fieldN w))
  | 0xE#4 => decodeKey w
  | _ => decodeMisc w

/-- Decoding from the bytes in memory order: an instruction is two bytes (R90). Answers the instruction and the rest. -/
def decodeBytes : List Byte → Except DecodeReject (Instr × List Byte)
  | high :: low :: rest => (decode (wordOfBytes high low)).map (·, rest)
  | _ => .error .truncated

/-! ## The opcode map -/

/-- A row of R95: `W` selects it when `W & mask = pattern`. -/
structure OpcodeRow where
  mnemonic : String
  mask : Word
  pattern : Word
  deriving DecidableEq, Repr

/-- R95: `W & mask = match`. -/
def OpcodeRow.selects (r : OpcodeRow) (w : Word) : Bool := w &&& r.mask == r.pattern

/-- The rows of R95 with format FIXED, NNN, XNN and XYN. -/
def opcodeMapPlain : List OpcodeRow :=
  [⟨"CLS", 0xFFFF, 0x00E0⟩, ⟨"RET", 0xFFFF, 0x00EE⟩, ⟨"JP_nnn", 0xF000, 0x1000⟩, ⟨"CALL_nnn", 0xF000, 0x2000⟩,
   ⟨"SE_Vx__nn", 0xF000, 0x3000⟩, ⟨"SNE_Vx__nn", 0xF000, 0x4000⟩, ⟨"LD_Vx__nn", 0xF000, 0x6000⟩,
   ⟨"ADD_Vx__nn", 0xF000, 0x7000⟩, ⟨"LD_I__nnn", 0xF000, 0xA000⟩, ⟨"JP_V0__nnn", 0xF000, 0xB000⟩,
   ⟨"RND_Vx__nn", 0xF000, 0xC000⟩, ⟨"DRW_Vx__Vy__n", 0xF000, 0xD000⟩]

/-- The rows of R95 with format XYS. -/
def opcodeMapXYS : List OpcodeRow :=
  [⟨"SE_Vx__Vy", 0xF00F, 0x5000⟩, ⟨"LD_Vx__Vy", 0xF00F, 0x8000⟩, ⟨"OR_Vx__Vy", 0xF00F, 0x8001⟩,
   ⟨"AND_Vx__Vy", 0xF00F, 0x8002⟩, ⟨"XOR_Vx__Vy", 0xF00F, 0x8003⟩, ⟨"ADD_Vx__Vy", 0xF00F, 0x8004⟩,
   ⟨"SUB_Vx__Vy", 0xF00F, 0x8005⟩, ⟨"SHR_Vx", 0xF00F, 0x8006⟩, ⟨"SUBN_Vx__Vy", 0xF00F, 0x8007⟩,
   ⟨"SHL_Vx", 0xF00F, 0x800E⟩, ⟨"SNE_Vx__Vy", 0xF00F, 0x9000⟩]

/-- The rows of R95 with format XSS. -/
def opcodeMapXSS : List OpcodeRow :=
  [⟨"SKP_Vx", 0xF0FF, 0xE09E⟩, ⟨"SKNP_Vx", 0xF0FF, 0xE0A1⟩, ⟨"LD_Vx__DT", 0xF0FF, 0xF007⟩,
   ⟨"LD_Vx__K", 0xF0FF, 0xF00A⟩, ⟨"LD_DT__Vx", 0xF0FF, 0xF015⟩, ⟨"LD_ST__Vx", 0xF0FF, 0xF018⟩,
   ⟨"ADD_I__Vx", 0xF0FF, 0xF01E⟩, ⟨"LD_F__Vx", 0xF0FF, 0xF029⟩, ⟨"LD_B__Vx", 0xF0FF, 0xF033⟩,
   ⟨"LD__I___Vx", 0xF0FF, 0xF055⟩, ⟨"LD_Vx___I", 0xF0FF, 0xF065⟩]

/-- R95: the 34 rows, by format. -/
def opcodeMap : List OpcodeRow := opcodeMapPlain ++ opcodeMapXYS ++ opcodeMapXSS

/-! ## Encoding -/

/-- Formats XYS and XYN of R92: four nibbles, most significant first. -/
def packXYN (op : Nibble) (x y : RegIx) (n : Nibble) : Word := op ++ x ++ y ++ n

/-- Formats XNN and XSS of R92. -/
def packXNN (op : Nibble) (x : RegIx) (nn : Byte) : Word := op ++ x ++ nn

/-- Format NNN of R92. -/
def packNNN (op : Nibble) (nnn : Addr12) : Word := op ++ nnn

/-- The word of an instruction, by its pattern in R95. -/
def encode : Instr → Word
  | .cls => 0x00E0
  | .ret => 0x00EE
  | .jp nnn => packNNN 0x1 nnn
  | .call nnn => packNNN 0x2 nnn
  | .seImm x nn => packXNN 0x3 x nn
  | .sneImm x nn => packXNN 0x4 x nn
  | .seReg x y => packXYN 0x5 x y 0x0
  | .ldImm x nn => packXNN 0x6 x nn
  | .addImm x nn => packXNN 0x7 x nn
  | .ldReg x y => packXYN 0x8 x y 0x0
  | .orReg x y => packXYN 0x8 x y 0x1
  | .andReg x y => packXYN 0x8 x y 0x2
  | .xorReg x y => packXYN 0x8 x y 0x3
  | .addReg x y => packXYN 0x8 x y 0x4
  | .subReg x y => packXYN 0x8 x y 0x5
  | .shr x y => packXYN 0x8 x y 0x6
  | .subnReg x y => packXYN 0x8 x y 0x7
  | .shl x y => packXYN 0x8 x y 0xE
  | .sneReg x y => packXYN 0x9 x y 0x0
  | .ldI nnn => packNNN 0xA nnn
  | .jpV0 nnn => packNNN 0xB nnn
  | .rnd x nn => packXNN 0xC x nn
  | .drw x y n => packXYN 0xD x y n
  | .skp x => packXNN 0xE x 0x9E
  | .sknp x => packXNN 0xE x 0xA1
  | .ldVxDT x => packXNN 0xF x 0x07
  | .ldVxK x => packXNN 0xF x 0x0A
  | .ldDTVx x => packXNN 0xF x 0x15
  | .ldSTVx x => packXNN 0xF x 0x18
  | .addI x => packXNN 0xF x 0x1E
  | .ldF x => packXNN 0xF x 0x29
  | .ldB x => packXNN 0xF x 0x33
  | .stRegs x => packXNN 0xF x 0x55
  | .ldRegs x => packXNN 0xF x 0x65

/-! ## The host's question -/

/-- The bytes of an instruction word as memory holds them (R65). -/
def bytesOfWord (w : Word) : List Byte := [highByte w, lowByte w]

/-- The word whose low `nbits` bits are those of `w` and whose other bits are 0, in the table's bit numbering. -/
def tableWord (nbits w : Nat) : Word := BitVec.ofNat 16 (w % 2 ^ nbits)

/-- What the decoder reads from the bytes of a table row's word. -/
def decodeTableWord (nbits w : Nat) : Option Instr :=
  match decodeBytes (bytesOfWord (tableWord nbits w)) with
  | .ok (i, _) => some i
  | .error _ => none

end Sys2Proof
end

