-- ==== Sys2Proof/Config.lean ====
section
/-! DEFINITION. The fixed parameters of R5, what the host may do next (R120, R258, R270), and the one free value:
the operation the host performs when the state's schedule names none (R6, D32). The parameter FONTSET is a field of
the state, its type and default in Machine/Font.lean. -/

namespace Sys2Proof

/-- One operation the host performs on the core. The three strobes are never asserted together (R120, R258), so an
operation is exactly one of them, with the inputs the host presents along with it. -/
inductive HostOp where
  /-- `CYCLE`, with the sample of `KEY[15:0]` and of `RND[7:0]` for this Cycle (R33, R35, R120). -/
  | cycle (key : Keys) (rnd : Byte)
  /-- `TICK` (R252). -/
  | tick
  /-- `RESET`, with the ROM byte stream (R257, R270). `hostClears` says whether the host also clears the display, which
  is its own and which the core does not touch (R44, D12). -/
  | reset (rom : List Byte) (hostClears : Bool)
  deriving DecidableEq, Repr, Inhabited

namespace Config

/-- `MEM_SIZE` (R5): 4096 bytes. -/
abbrev memSize : Nat := 0x1000

/-- `LOAD_ADDR` (R5): where the ROM is copied and where `PC` starts. -/
abbrev loadAddr : Nat := 0x200

/-- `ROM_MAX` (R5, R70): 3584 bytes. -/
abbrev romMax : Nat := memSize - loadAddr

/-- `STACK_DEPTH` (R5, R28): 16 return addresses. -/
abbrev stackDepth : Nat := 16

/-- `FB_W` (R5, R34): 64 columns. -/
abbrev fbWidth : Nat := 64

/-- `FB_H` (R5, R34): 32 rows. -/
abbrev fbHeight : Nat := 32

/-- FREE VALUE (log 1). The operation the host performs when the schedule in the state is used up, as a function of how
many were drawn before. It has no body: any interleaving of Cycle, Tick and Reset, with any `KEY`, `RND` and ROM, is a
possible run (R6, R35, R120, D23, D32), so nothing about it can be proved. -/
opaque hostOp : Nat → HostOp

end Config

end Sys2Proof
end

