-- ==== Sys2Proof/Machine/Font.lean ====
section
/-! DEFINITION. FONTSET, the parameter of R6 and R62: its type, and the spec's default table. -/

namespace Sys2Proof.Machine

/-- `FONTSET[0..79]`: 16 glyphs of 5 bytes, whatever the build's bytes are (R6, R62). -/
abbrev Fontset := Vector Byte 80

/-- Glyphs 0 to 7 of R62, five rows each, top row first. PRESUMED: the spec marks the bytes as general knowledge and as
the parameter's default (D11, G1; log 4). -/
def fontLow : List Byte :=
  [0xF0, 0x90, 0x90, 0x90, 0xF0,  0x20, 0x60, 0x20, 0x20, 0x70,
   0xF0, 0x10, 0xF0, 0x80, 0xF0,  0xF0, 0x10, 0xF0, 0x10, 0xF0,
   0x90, 0x90, 0xF0, 0x10, 0x10,  0xF0, 0x80, 0xF0, 0x10, 0xF0,
   0xF0, 0x80, 0xF0, 0x90, 0xF0,  0xF0, 0x10, 0x20, 0x40, 0x40]

/-- Glyphs 8 to F of R62. PRESUMED, as `fontLow`. -/
def fontHigh : List Byte :=
  [0xF0, 0x90, 0xF0, 0x90, 0xF0,  0xF0, 0x90, 0xF0, 0x10, 0xF0,
   0xF0, 0x90, 0xF0, 0x90, 0x90,  0xE0, 0x90, 0xE0, 0x90, 0xE0,
   0xF0, 0x80, 0x80, 0x80, 0xF0,  0xE0, 0x90, 0x90, 0x90, 0xE0,
   0xF0, 0x80, 0xF0, 0x80, 0xF0,  0xF0, 0x80, 0xF0, 0x80, 0x80]

/-- The default of `FONTSET` (R62). -/
def defaultFontset : Fontset := ⟨(fontLow ++ fontHigh).toArray, rfl⟩

end Sys2Proof.Machine
end

