-- ==== Sys2Proof/Machine/State.lean ====
section
/-! DEFINITION. The state of the machine: every row of R38, the ports among them, the parameter FONTSET, and the model's own
schedule; the
reasons a step can stop; the state right after a power-on reset (R39 to R45, R271). -/

namespace Sys2Proof.Machine

/-- Why the model stops instead of answering a next state. The six faults of the spec are NOT here: a fault halts the
core in a next state (R249). -/
inductive Fault where
  /-- Raised by RET and CALL when `SP` is above 16, where the call stack has no entry to touch (R27 and R28: `SP` is at
  most 16, so no run from reset comes here). Safe: the model stops where the spec says nothing (log 11). -/
  | noStackEntry
  deriving DecidableEq, Repr

/-- Why the model has no meaning for an instruction. -/
inductive Refusal where
  /-- Raised by an arm of `exec` whose instruction has no meaning yet; no arm raises it. Safe. -/
  | notModelled (mnemonic : String)
  deriving DecidableEq, Repr

/-- What `ERR.code` says (R246); the numbers are `ErrCode.number`. -/
inductive ErrCode where
  /-- 0: no error. -/
  | noError
  /-- 1: R240. -/
  | decodeError
  /-- 2: R241. -/
  | capacityError
  /-- 3: R242. -/
  | addressRange
  /-- 4: R243. -/
  | stackOverflow
  /-- 5: R244. -/
  | stackUnderflow
  /-- 6: R245. -/
  | keyIndexRange
  deriving DecidableEq, Repr

/-- `ERR` (R32). -/
structure ErrRecord where
  /-- `ERR.code`. -/
  code : ErrCode
  /-- `ERR.pc`: `PC` when the fault was raised. -/
  pc : Word
  /-- `ERR.word`: the instruction word, or 0. -/
  word : Word
  /-- `ERR.info`: the offending address, key index or ROM length, or 0. -/
  info : Word
  deriving DecidableEq, Repr

/-- `ERR` all zero (R42). -/
def ErrRecord.clear : ErrRecord := ⟨.noError, 0, 0, 0⟩

/-- Memory as plain data: the cells that differ from the reset content, addresses strictly rising. -/
abbrev Mem := List Host.Cell

/-- The framebuffer, 32 rows of 64 boolean pixels, row 0 at the top (R34, R213). -/
abbrev Framebuffer := Vector (Vector Bool 64) 32

/-- The whole state (R38). -/
structure State where
  /-- `V[0]` to `V[15]` (R20). -/
  v : Vector Byte 16
  /-- `I` (R24). -/
  i : Word
  /-- `PC` (R25). -/
  pc : Word
  /-- `SP`, the number of return addresses held (R27). -/
  sp : Byte
  /-- `STACK[0]` to `STACK[15]` (R28). -/
  stack : Vector Word 16
  /-- `DT` (R29). -/
  dt : Byte
  /-- `ST` (R30). -/
  st : Byte
  /-- `MEM` (R37). -/
  mem : Mem
  /-- `WAIT` (R31). -/
  wait : Bool
  /-- `WAITREG` (R31). -/
  waitReg : RegIx
  /-- `HALT` (R32). -/
  halt : Bool
  /-- `ERR` (R32). -/
  err : ErrRecord
  /-- `KEY[15:0]`, the sample presented with the latest Cycle (R33). -/
  key : Keys
  /-- `RND[7:0]`, the byte presented with the latest Cycle (R35). -/
  rnd : Byte
  /-- `FB`, the display collaborator's pixels (R34). -/
  fb : Framebuffer
  /-- `TONE`, the output of the latest operation: 0 outside a Tick (R36, R45, R253; log 10). -/
  tone : Bool
  /-- `FONTSET`, the build's parameter as data: any 80 bytes, which no operation changes (R6, R13, R62; log 4). -/
  fontset : Fontset
  /-- The model's own: the operations the host has yet to perform, the next one first (R6, R120; log 1). -/
  schedule : List HostOp
  /-- The model's own: how many operations were drawn from `Config.hostOp` (log 1). -/
  draws : Nat
  deriving DecidableEq, Repr

/-- All pixels off (R44). -/
def Framebuffer.off : Framebuffer := Vector.replicate 32 (Vector.replicate 64 false)

/-- The machine right after the power-on reset, before any ROM byte is loaded (R39 to R45, R270, R271; logs 2 to 10).
Memory lists nothing: it reads as the font and zeros (R43). `FONTSET` is at R62's default here, and a statement about every
state holds for every `FONTSET` (log 4). -/
def State.reset : State where
  v := Vector.replicate 16 0
  i := 0
  pc := 0x0200
  sp := 0
  stack := Vector.replicate 16 0
  dt := 0
  st := 0
  mem := []
  wait := false
  waitReg := 0
  halt := false
  err := .clear
  key := 0
  rnd := 0
  fb := .off
  tone := false
  fontset := defaultFontset
  schedule := []
  draws := 0

end Sys2Proof.Machine
end

