-- ==== Sys2Proof/Machine/Ops.lean ====
section
/-! DEFINITION. The named operations over registers, memory, the call stack, the framebuffer and the keys, and taking a
fault, written once. The only way out of a fault is Reset (R251), in Machine/Reset.lean. -/

namespace Sys2Proof.Machine

/-- What a meaning answers. -/
abbrev Result := Host.Outcome State Fault Refusal

/-! ## General registers (R20) -/

/-- `VF`, the register that doubles as the flag (R21). -/
def VF : RegIx := 0xF

/-- `V[x]`. All sixteen registers are ordinary: none is hard-wired and none aliases another. -/
def State.readV (s : State) (x : RegIx) : Byte := s.v[x.toNat]'x.isLt

/-- `V[x] <- b`. -/
def State.setV (s : State) (x : RegIx) (b : Byte) : State := { s with v := s.v.set x.toNat b x.isLt }

/-- `V[0], …, V[n-1]`, in order. -/
def State.readVs (s : State) (n : Nat) : List Byte := s.v.toList.take n

/-- `V[k] <- b0, V[k+1] <- b1, …`; an index above 15 writes nothing. -/
def State.writeVs (s : State) (k : Nat) : List Byte → State
  | [] => s
  | b :: bs => State.writeVs { s with v := s.v.setIfInBounds k b } (k + 1) bs

/-! ## The other registers -/

/-- `I <- w`. -/
def State.setI (s : State) (w : Word) : State := { s with i := w }

/-- `PC <- w`. -/
def State.setPc (s : State) (w : Word) : State := { s with pc := w }

/-- `DT <- b`. -/
def State.setDt (s : State) (b : Byte) : State := { s with dt := b }

/-- `ST <- b`. -/
def State.setSt (s : State) (b : Byte) : State := { s with st := b }

/-- Replaces the memory. -/
def State.setMem (s : State) (m : Mem) : State := { s with mem := m }

/-- Replaces the framebuffer. -/
def State.setFb (s : State) (fb : Framebuffer) : State := { s with fb := fb }

/-- `WAIT <- 1`, `WAITREG <- x` (R222). -/
def State.enterWait (s : State) (x : RegIx) : State := { s with wait := true, waitReg := x }

/-- `WAIT <- 0` (R122). -/
def State.leaveWait (s : State) : State := { s with wait := false }

/-- The ports of a Cycle: the host presents a new sample of `KEY` and `RND` (R33, R35, R120), and `TONE`, the output of a
Tick only, is 0 (R45, R128). -/
def State.present (s : State) (key : Keys) (rnd : Byte) : State := { s with key := key, rnd := rnd, tone := false }

/-- `PC <- trunc_16(PC + 2)` (R26, R124). -/
def State.advance (s : State) : State := s.setPc (s.pc + 2)

/-! ## Memory (R60 to R68) -/

/-- What an address that no cell lists reads as in a build with the font `f`: the reset content, the font at the bottom and
`0x00` everywhere else (R43, R62; logs 4 and 7). -/
def Memory.blank (f : Fontset) (a : Nat) : Byte := if h : a < 80 then f[a]'h else 0

/-- `MEM[a]`, with no check. -/
def Memory.read (f : Fontset) : Mem → Nat → Byte
  | [], a => Memory.blank f a
  | (b, w) :: m, a => if b = a then w else Memory.read f m a

/-- The memory without any cell at `a`: `a` reads as its reset content. -/
def Memory.erase : Mem → Nat → Mem
  | [], _ => []
  | (b, w) :: m, a => if b = a then Memory.erase m a else (b, w) :: Memory.erase m a

/-- The memory with a cell for `a` put before the first higher address. -/
def Memory.insert : Mem → Nat → Byte → Mem
  | [], a, v => [(a, v)]
  | (b, w) :: m, a, v => if a < b then (a, v) :: (b, w) :: m else (b, w) :: Memory.insert m a v

/-- `MEM[a] <- v`, with no check. Writing the reset content removes the cell, so that equal memories are equal lists. -/
def Memory.write (f : Fontset) (m : Mem) (a : Nat) (v : Byte) : Mem :=
  if v = Memory.blank f a then Memory.erase m a else Memory.insert (Memory.erase m a) a v

/-- `writeRange` of R68: `MEM[a] <- b0, MEM[a+1] <- b1, …`. The addresses differ, so the order is not observable
(log 17). -/
def Memory.writeRange (f : Fontset) (m : Mem) (a : Nat) : List Byte → Mem
  | [] => m
  | b :: bs => Memory.write f (Memory.writeRange f m (a + 1) bs) a b

/-- `MEM[a], …, MEM[a+n-1]`, in ascending order. -/
def Memory.readRange (f : Fontset) (m : Mem) (a : Nat) : Nat → List Byte
  | 0 => []
  | n + 1 => Memory.read f m a :: Memory.readRange f m (a + 1) n

/-- The canonical form of a memory whose addresses are all at least `lo`: addresses strictly rising and inside the
address space, and no cell equal to the reset content. -/
def Memory.wfFrom (f : Fontset) (lo : Nat) : Mem → Bool
  | [] => true
  | (a, v) :: m =>
    decide (lo ≤ a) && decide (a < Config.memSize) && decide (v ≠ Memory.blank f a) && Memory.wfFrom f (a + 1) m

/-- The canonical form of a memory. -/
def Memory.wf (f : Fontset) (m : Mem) : Bool := Memory.wfFrom f 0 m

/-- R63, R64: an access to `n` bytes from `a` is in range when its last address is at most `0xFFF`; the sum is exact
and never wraps (R75). An access to no byte is always in range. -/
def Memory.inRange (a n : Nat) : Bool := n == 0 || a + n - 1 ≤ 0xFFF

/-- The lowest out-of-range address of an access from `a` that is not in range (R193, R242). -/
def Memory.firstOutside (a : Nat) : Nat := max a 0x1000

/-- `MEM[a]` of the machine: the model's read of one byte. -/
def State.readByte (s : State) (a : Nat) : Byte := Memory.read s.fontset s.mem a

/-- The `n` bytes of memory from `a`, in ascending order. -/
def State.readBlock (s : State) (a n : Nat) : List Byte := Memory.readRange s.fontset s.mem a n

/-- Stores the bytes from `a` up (R68). -/
def State.writeBlock (s : State) (a : Nat) (bs : List Byte) : State :=
  s.setMem (Memory.writeRange s.fontset s.mem a bs)

/-- The machine's memory has the canonical form. -/
def State.memoryWf (s : State) : Bool := Memory.wf s.fontset s.mem

/-! ## The call stack (R28) -/

/-- Push: `STACK[SP] <- w; SP <- SP + 1`. None where the stack has no entry `SP`. -/
def State.push (s : State) (w : Word) : Option State :=
  if h : s.sp.toNat < 16 then some { s with stack := s.stack.set s.sp.toNat w h, sp := s.sp + 1 } else none

/-- Pop: `SP <- SP - 1`, answering `STACK[SP]`; the entry is not cleared. None where the stack has no such entry. -/
def State.pop (s : State) : Option (Word × State) :=
  let top := s.sp - 1
  if h : top.toNat < 16 then some (s.stack[top.toNat]'h, { s with sp := top }) else none

/-! ## The framebuffer port (R212, R256) -/

/-- `getPixel(px, py)`. Off the screen there is no pixel and the core never asks for one (R212): the answer there is
`false`. -/
def getPixel (fb : Framebuffer) (px py : Nat) : Bool :=
  if h : px < 64 ∧ py < 32 then (fb[py]'h.2)[px]'h.1 else false

/-- `setPixel(px, py, b)`. Off the screen there is no pixel and the core never sets one (R212): nothing changes there. -/
def setPixel (fb : Framebuffer) (px py : Nat) (b : Bool) : Framebuffer :=
  if h : px < 64 ∧ py < 32 then fb.set py ((fb[py]'h.2).set px b h.1) h.2 else fb

/-! ## Keys (R33, R255) -/

/-- `KEY[k] = 1` in the sample. -/
def keyHeld (key : Keys) (k : Nat) : Bool := key.getLsbD k

/-- The smallest `k` with `KEY[k] = 1`, if any key is held (R122). -/
def lowestKey (key : Keys) : Option Nat := (List.range 16).find? (keyHeld key)

/-! ## Faults (R240 to R249) -/

/-- The number of an error code (R246). -/
def ErrCode.number : ErrCode → BitVec 3
  | .noError => 0
  | .decodeError => 1
  | .capacityError => 2
  | .addressRange => 3
  | .stackOverflow => 4
  | .stackUnderflow => 5
  | .keyIndexRange => 6

/-- Taking a fault (R249): `HALT <- 1` and `ERR` is written; nothing else changes and control goes nowhere. `ERR.pc` is
`PC` as it stands, `ERR.info` is truncated to 16 bits (R32). -/
def State.raiseFault (s : State) (code : ErrCode) (word : Word) (info : Nat) : State :=
  { s with halt := true, err := ⟨code, s.pc, word, BitVec.ofNat 16 info⟩ }

/-- A memory block of `n` bytes at `I`: `k` if it is in range, else the fault `AddressRange`, before any transfer
(R126, R193 to R195, R211). -/
def State.withBlock (s : State) (n : Nat) (word : Word) (k : State) : State :=
  if Memory.inRange s.i.toNat n then k
  else s.raiseFault .addressRange word (Memory.firstOutside s.i.toNat)

end Sys2Proof.Machine
end

