-- ==== Sys2Proof/Machine/Flags.lean ====
section
/-! DEFINITION. The flag computations. Each is on the exact result of the operands read before any write (R172), and the
flag is written last (R127). -/

namespace Sys2Proof.Machine

/-- A flag as the byte `VF` receives. -/
def flagByte (f : Bool) : Byte := if f then 1 else 0

/-- Carry of `8xy4`: the exact sum exceeds 255 (R166). -/
def carryOut (a b : Byte) : Bool := 255 < a.toNat + b.toNat

/-- No-borrow of `8xy5` and `8xy7`: minuend at least subtrahend (R167, R169). -/
def noBorrow (minuend subtrahend : Byte) : Bool := subtrahend.toNat ≤ minuend.toNat

/-- The bit shifted out by `8xy6` (R168). -/
def lowBit (a : Byte) : Bool := a.getLsbD 0

/-- The bit shifted out by `8xyE` (R170). -/
def highBit (a : Byte) : Bool := a.getLsbD 7

/-- Overflow of the 12-bit range by `Fx1E` (R191). -/
def indexOverflow (sum : Nat) : Bool := 0xFFF < sum

/-- `VF <- f`. -/
def State.setFlag (s : State) (f : Bool) : State := s.setV VF (flagByte f)

/-- Result register first, flag last (R127): when `x` is 15 the flag overwrites the result. -/
def State.setWithFlag (s : State) (x : RegIx) (result : Byte) (f : Bool) : State := (s.setV x result).setFlag f

end Sys2Proof.Machine
end

