-- ==== Sys2Proof/Machine/Operands.lean ====
section
/-! DEFINITION. The operand forms: a register, an immediate, the block of memory at `I` (R93, R196), and the skip that
conditional instructions share (R26, R148). -/

namespace Sys2Proof.Machine

/-- A skip: `PC <- trunc_16(PC + 2)` once more if `c` (R26). The skipped word is not looked at (R97). -/
def State.skipIf (s : State) (c : Bool) : State := if c then s.setPc (s.pc + 2) else s

/-- The number of registers `V[0] .. V[x]` (R194, R195): `x` is the field itself. -/
def regCount (x : RegIx) : Nat := x.toNat + 1

/-- `I <- trunc_16(I + x + 1)` (R194, R195): to 16 bits, not to 12. -/
def State.advanceI (s : State) (x : RegIx) : State := s.setI (s.i + BitVec.ofNat 16 (regCount x))

/-- The three decimal digits of a byte: hundreds, tens, units (R193). -/
def decimalDigits (b : Byte) : List Byte :=
  [BitVec.ofNat 8 (b.toNat / 100), BitVec.ofNat 8 (b.toNat / 10 % 10), BitVec.ofNat 8 (b.toNat % 10)]

/-- `I + V[x]`, exact (R191). -/
def indexSum (i : Word) (b : Byte) : Nat := i.toNat + b.toNat

/-- `Vx * 5`, the address of a glyph; the register is not masked (R192). -/
def glyphAddress (b : Byte) : Word := BitVec.ofNat 16 (b.toNat * 5)

/-- `nnn + V0`, to 16 bits (R147). -/
def indexedTarget (nnn : Addr12) (b : Byte) : Word := zext16 nnn + b.setWidth 16

end Sys2Proof.Machine
end

