-- ==== Sys2Proof/Machine/Alu.lean ====
section
/-! DEFINITION. Register loads, arithmetic, logic, shifts and random (spec/42_alu.md). None can fault. -/

namespace Sys2Proof.Machine

/-- `6xnn` LD Vx, nn (R160). -/
def execLdImm (x : RegIx) (nn : Byte) (s : State) : Result := .next (s.setV x nn)

/-- `7xnn` ADD Vx, nn (R161): modulo 256, no flag. -/
def execAddImm (x : RegIx) (nn : Byte) (s : State) : Result := .next (s.setV x (s.readV x + nn))

/-- `8xy0` LD Vx, Vy (R162). -/
def execLdReg (x y : RegIx) (s : State) : Result := .next (s.setV x (s.readV y))

/-- `8xy1` OR Vx, Vy (R163): no flag. -/
def execOrReg (x y : RegIx) (s : State) : Result := .next (s.setV x (s.readV x ||| s.readV y))

/-- `8xy2` AND Vx, Vy (R164): no flag. -/
def execAndReg (x y : RegIx) (s : State) : Result := .next (s.setV x (s.readV x &&& s.readV y))

/-- `8xy3` XOR Vx, Vy (R165): no flag. -/
def execXorReg (x y : RegIx) (s : State) : Result := .next (s.setV x (s.readV x ^^^ s.readV y))

/-- `8xy4` ADD Vx, Vy (R166). -/
def execAddReg (x y : RegIx) (s : State) : Result :=
  let a := s.readV x
  let b := s.readV y
  .next (s.setWithFlag x (a + b) (carryOut a b))

/-- `8xy5` SUB Vx, Vy (R167). -/
def execSubReg (x y : RegIx) (s : State) : Result :=
  let a := s.readV x
  let b := s.readV y
  .next (s.setWithFlag x (a - b) (noBorrow a b))

/-- `8xy6` SHR Vx (R168): the operand is `V[x]` and `y` is ignored (D13; log 13). -/
def execShr (x _y : RegIx) (s : State) : Result :=
  let a := s.readV x
  .next (s.setWithFlag x (a >>> 1) (lowBit a))

/-- `8xy7` SUBN Vx, Vy (R169). -/
def execSubnReg (x y : RegIx) (s : State) : Result :=
  let a := s.readV x
  let b := s.readV y
  .next (s.setWithFlag x (b - a) (noBorrow b a))

/-- `8xyE` SHL Vx (R170): the operand is `V[x]` and `y` is ignored (D13; log 13). -/
def execShl (x _y : RegIx) (s : State) : Result :=
  let a := s.readV x
  .next (s.setWithFlag x (a <<< 1) (highBit a))

/-- `Cxnn` RND Vx, nn (R171): `RND` is whatever the host presents with this Cycle (R35). -/
def execRnd (x : RegIx) (nn : Byte) (s : State) : Result := .next (s.setV x (s.rnd &&& nn))

end Sys2Proof.Machine
end

