-- ==== Sys2Proof/Machine/ControlFlow.lean ====
section
/-! DEFINITION. Return, jump, call, skips and indexed jump (spec/41_control_flow.md). `PC` has already been advanced past
the instruction (R124). -/

namespace Sys2Proof.Machine

/-- `00EE` RET (R140). -/
def execRet (s : State) : Result :=
  if s.sp = 0 then .next (s.raiseFault .stackUnderflow (encode .ret) 0)
  else match s.pop with
    | some (target, t) => .next (t.setPc target)
    | none => .fault .noStackEntry

/-- `1nnn` JP nnn (R141). -/
def execJp (nnn : Addr12) (s : State) : Result := .next (s.setPc (zext16 nnn))

/-- `2nnn` CALL nnn (R142): the pushed value is the already advanced `PC`. -/
def execCall (nnn : Addr12) (s : State) : Result :=
  if s.sp = 16 then .next (s.raiseFault .stackOverflow (encode (.call nnn)) 0)
  else match s.push s.pc with
    | some t => .next (t.setPc (zext16 nnn))
    | none => .fault .noStackEntry

/-- `3xnn` SE Vx, nn (R143). -/
def execSeImm (x : RegIx) (nn : Byte) (s : State) : Result := .next (s.skipIf (s.readV x == nn))

/-- `4xnn` SNE Vx, nn (R144). -/
def execSneImm (x : RegIx) (nn : Byte) (s : State) : Result := .next (s.skipIf (s.readV x != nn))

/-- `5xy0` SE Vx, Vy (R145). -/
def execSeReg (x y : RegIx) (s : State) : Result := .next (s.skipIf (s.readV x == s.readV y))

/-- `9xy0` SNE Vx, Vy (R146). -/
def execSneReg (x y : RegIx) (s : State) : Result := .next (s.skipIf (s.readV x != s.readV y))

/-- `Bnnn` JP V0, nnn (R147): always register 0, not wrapped to 12 bits, no fault at the jump. -/
def execJpV0 (nnn : Addr12) (s : State) : Result := .next (s.setPc (indexedTarget nnn (s.readV 0)))

end Sys2Proof.Machine
end

