-- ==== Sys2Proof/Machine/Display.lean ====
section
/-! DEFINITION. The display instructions (spec/44_display.md), by the loops of R211. -/

namespace Sys2Proof.Machine

/-- The framebuffer while a sprite is drawn, with whether a lit pixel has been turned off so far. -/
structure Canvas where
  fb : Framebuffer
  hit : Bool
  deriving DecidableEq, Repr

/-- One sprite bit at the exact coordinates `px`, `py`: a set bit on the screen toggles its pixel and reports whether it
was on; a clear bit, or one off the screen, does nothing (R211: clipped, not wrapped). -/
def drawPixel (px py : Nat) (bit : Bool) (c : Canvas) : Canvas :=
  if bit && decide (px ≤ 63) && decide (py ≤ 31) then
    { fb := setPixel c.fb px py (!getPixel c.fb px py), hit := c.hit || getPixel c.fb px py }
  else c

/-- The leftmost `k` columns of one sprite row, left to right; bit 7 is the leftmost pixel (R211 (j), D17; log 15). -/
def drawColumns (cx py : Nat) (row : Byte) : Nat → Canvas → Canvas
  | 0, c => c
  | k + 1, c => drawPixel (cx + k) py (row.getLsbD (7 - k)) (drawColumns cx py row k c)

/-- The sprite rows from screen row `py` downward (R211, R213). -/
def drawRows (cx : Nat) : Nat → List Byte → Canvas → Canvas
  | _, [], c => c
  | py, row :: rows, c => drawRows cx (py + 1) rows (drawColumns cx py row 8 c)

/-- Draws the sprite `rows` with its corner at `V[x]`, `V[y]`, then writes the collision flag (R127, R211). -/
def State.drawSprite (s : State) (x y : RegIx) (rows : List Byte) : State :=
  let c := drawRows (s.readV x).toNat (s.readV y).toNat rows { fb := s.fb, hit := false }
  (s.setFb c.fb).setFlag c.hit

/-- `00E0` CLS (R210). -/
def execCls (s : State) : Result := .next (s.setFb Framebuffer.off)

/-- `Dxyn` DRW Vx, Vy, n (R211): all `n` rows are read before any pixel changes, clipped or not (D19). -/
def execDrw (x y : RegIx) (n : Nibble) (s : State) : Result :=
  .next (s.withBlock n.toNat (encode (.drw x y n))
    (s.drawSprite x y (s.readBlock s.i.toNat n.toNat)))

end Sys2Proof.Machine
end

