-- ==== Sys2Proof/Machine/IndexMemory.lean ====
section
/-! DEFINITION. The index register and the memory instructions (spec/43_index_memory.md). -/

namespace Sys2Proof.Machine

/-- `Annn` LD I, nnn (R190). -/
def execLdI (nnn : Addr12) (s : State) : Result := .next (s.setI (zext16 nnn))

/-- `Fx1E` ADD I, Vx (R191): the one instruction that wraps `I` into 12 bits; `VF` is written last (D14, D15). -/
def execAddI (x : RegIx) (s : State) : Result :=
  let sum := indexSum s.i (s.readV x)
  .next ((s.setI (BitVec.ofNat 16 (sum % 4096))).setFlag (indexOverflow sum))

/-- `Fx29` LD F, Vx (R192). -/
def execLdF (x : RegIx) (s : State) : Result := .next (s.setI (glyphAddress (s.readV x)))

/-- `Fx33` LD B, Vx (R193). -/
def execLdB (x : RegIx) (s : State) : Result :=
  .next (s.withBlock 3 (encode (.ldB x))
    (s.writeBlock s.i.toNat (decimalDigits (s.readV x))))

/-- `Fx55` LD [I], Vx (R194): all or nothing (D25). -/
def execStRegs (x : RegIx) (s : State) : Result :=
  .next (s.withBlock (regCount x) (encode (.stRegs x))
    ((s.writeBlock s.i.toNat (s.readVs (regCount x))).advanceI x))

/-- `Fx65` LD Vx, [I] (R195): all or nothing (D25). -/
def execLdRegs (x : RegIx) (s : State) : Result :=
  .next (s.withBlock (regCount x) (encode (.ldRegs x))
    ((s.writeVs 0 (s.readBlock s.i.toNat (regCount x))).advanceI x))

end Sys2Proof.Machine
end

