-- ==== Sys2Proof/Machine/KeyboardTimers.lean ====
section
/-! DEFINITION. The keyboard and timer instructions (spec/45_keyboard_timers.md). `KEY` is the sample of the current
Cycle (R33). -/

namespace Sys2Proof.Machine

/-- The fault of `Ex9E` and `ExA1` on a key index above 15, which is not masked (R220, R221, R245, D5), else a skip. -/
def State.keySkip (s : State) (k : Byte) (word : Word) (c : Bool) : State :=
  if 15 < k.toNat then s.raiseFault .keyIndexRange word k.toNat else s.skipIf c

/-- `Ex9E` SKP Vx (R220). -/
def execSkp (x : RegIx) (s : State) : Result :=
  .next (s.keySkip (s.readV x) (encode (.skp x)) (keyHeld s.key (s.readV x).toNat))

/-- `ExA1` SKNP Vx (R221). -/
def execSknp (x : RegIx) (s : State) : Result :=
  .next (s.keySkip (s.readV x) (encode (.sknp x)) (!keyHeld s.key (s.readV x).toNat))

/-- `Fx0A` LD Vx, K (R222): no key is looked at in this Cycle. -/
def execLdVxK (x : RegIx) (s : State) : Result := .next (s.enterWait x)

/-- `Fx07` LD Vx, DT (R223). -/
def execLdVxDT (x : RegIx) (s : State) : Result := .next (s.setV x s.dt)

/-- `Fx15` LD DT, Vx (R224). -/
def execLdDTVx (x : RegIx) (s : State) : Result := .next (s.setDt (s.readV x))

/-- `Fx18` LD ST, Vx (R225). -/
def execLdSTVx (x : RegIx) (s : State) : Result := .next (s.setSt (s.readV x))

end Sys2Proof.Machine
end

