-- ==== Sys2Proof/Machine/Cycle.lean ====
section
/-! DEFINITION. The Cycle operation (spec/40_cycle.md, assembled as R129). -/

namespace Sys2Proof.Machine

/-- The word at `PC`, high byte first (R65). None where one of the two bytes is outside the address space. -/
def State.fetchWord (s : State) : Option Word :=
  if Memory.inRange s.pc.toNat 2 then
    some (wordOfBytes (s.readByte s.pc.toNat) (s.readByte (s.pc.toNat + 1)))
  else none

/-- A fetch outside the address space: `AddressRange` with the first address outside, `ERR.word = 0`, and `PC` is not
advanced (R123, R242). -/
def State.fetchFault (s : State) : State :=
  s.raiseFault .addressRange 0 (Memory.firstOutside s.pc.toNat)

/-- The key-wait scan (R122): the lowest held key goes to `V[WAITREG]` and ends the wait; with no key held nothing
changes. -/
def State.scanKeys (s : State) : State :=
  match lowestKey s.key with
  | some k => (s.setV s.waitReg (BitVec.ofNat 8 k)).leaveWait
  | none => s

/-- Decode and execute the word `w`, `PC` already advanced (R125). A word with no row raises `DecodeError` (R240). -/
def State.dispatch (s : State) (w : Word) : Result :=
  match decode w with
  | .ok i => exec i s
  | .error _ => .next (s.raiseFault .decodeError w 0)

/-- Fetch, advance, dispatch (R123 to R125). -/
def State.runInstruction (s : State) : Result :=
  match s.fetchWord with
  | some w => s.advance.dispatch w
  | none => .next s.fetchFault

/-- One Cycle with the sample `key`, `rnd` (R129); it gives `TONE = 0` (R45). -/
def cycle (key : Keys) (rnd : Byte) (s : State) : Result :=
  let s := s.present key rnd
  if s.halt then .next s
  else if s.wait then .next s.scanKeys
  else s.runInstruction

end Sys2Proof.Machine
end

