-- ==== Sys2Proof/Machine/Reset.lean ====
section
/-! DEFINITION. The Reset operation (R270): the only way out of a fault (R251). -/

namespace Sys2Proof.Machine

/-- Every core register, status bit and memory byte at its reset value (R39 to R43), and `TONE = 0` (R45); the framebuffer,
the keys and the random input are not the core's and stay (R44, R45, R272), and so do the build's `FONTSET` (R6) and the
host's schedule. -/
def State.clearCore (s : State) : State :=
  { State.reset with
    key := s.key, rnd := s.rnd, fb := s.fb, fontset := s.fontset, schedule := s.schedule, draws := s.draws }

/-- `LoadRom` (R69, R70): the capacity check is made before any byte is copied. -/
def State.loadRom (s : State) (rom : List Byte) : State :=
  if Config.romMax < rom.length then s.raiseFault .capacityError 0 rom.length
  else s.writeBlock Config.loadAddr rom

/-- Reset(ROM) (R270). -/
def resetWith (rom : List Byte) (s : State) : State := s.clearCore.loadRom rom

/-- The host clears its display (R44, D12): not an operation of the core. -/
def State.hostClear (s : State) (clears : Bool) : State := if clears then s.setFb Framebuffer.off else s

end Sys2Proof.Machine
end

