-- ==== Sys2Proof/Machine/Tick.lean ====
section
/-! DEFINITION. The Tick operation: the timer countdown engine (R252 to R254). -/

namespace Sys2Proof.Machine

/-- A timer counts down to 0 and stays there (R252). -/
def countDown (b : Byte) : Byte := if 0 < b.toNat then b - 1 else b

/-- One Tick (R252): a halted core changes nothing and gives `TONE = 0` (R249). -/
def tick (s : State) : State :=
  if s.halt then { s with tone := false }
  else { s with dt := countDown s.dt, st := countDown s.st, tone := decide (0 < s.st.toNat) }

end Sys2Proof.Machine
end

