-- ==== Sys2Proof/Machine/Operations.lean ====
section
/-! DEFINITION. One whole operation of the core (R120), which operation comes next (log 1), and how the host's question
places an instruction where the next Cycle fetches it. -/

namespace Sys2Proof.Machine

/-- One operation, atomic and run to completion (R120). -/
def perform (op : HostOp) (s : State) : Result :=
  match op with
  | .cycle key rnd => cycle key rnd s
  | .tick => .next (tick s)
  | .reset rom hostClears => .next (resetWith rom (s.hostClear hostClears))

/-- The operation the host performs next: the schedule's first, or a free one when the schedule is used up (log 1). -/
def State.nextOp (s : State) : HostOp :=
  match s.schedule with
  | op :: _ => op
  | [] => Config.hostOp s.draws

/-- The state once that operation is taken: off the schedule, or counted among the draws. -/
def State.takeOp (s : State) : State :=
  match s.schedule with
  | _ :: rest => { s with schedule := rest }
  | [] => { s with draws := s.draws + 1 }

/-- `s` ready to run an instruction next: not halted, not waiting, `PC` where two bytes can be fetched, and a Cycle with
the inputs as they stand next on the schedule (log 3). -/
def State.readyToFetch (s : State) : State :=
  { s with
    halt := false, err := if s.halt then .clear else s.err, wait := false
    pc := if Memory.inRange s.pc.toNat 2 then s.pc else 0x0200
    schedule := .cycle s.key s.rnd :: s.schedule }

/-- `s` with the word `w` at `PC`, high byte first (R65). -/
def State.placeWord (s : State) (w : Word) : State :=
  s.writeBlock s.pc.toNat (bytesOfWord w)

end Sys2Proof.Machine
end

