-- ==== Sys2Proof/Machine/Step.lean ====
section
/-! DEFINITION. One step of the machine: the host's next operation. -/

namespace Sys2Proof.Machine

/-- One step: exactly one operation, Cycle, Tick or Reset (R120, log 1). -/
def step (s : State) : Host.Outcome State Fault Refusal := perform s.nextOp s.takeOp

/-- `s` with a table row's word where the next step fetches it (log 3). -/
def State.withFetchWord (s : State) (nbits w : Nat) : State := s.readyToFetch.placeWord (tableWord nbits w)

end Sys2Proof.Machine
end

