-- ==== Sys2Proof/Safety.lean ====
section
/-! DEFINITION. The terms claims are stated in: the bounds every run keeps, the parts of the state for frames, which
parts and registers each instruction may write (R23, R38), and the closed form of a sprite (R214). -/

namespace Sys2Proof.Machine

/-! ## The invariant of a run -/

/-- Every live return address is at most `0x1000` (R28, R140). -/
abbrev State.returnsBounded (s : State) : Prop := ∀ k : Fin 16, k.val < s.sp.toNat → (s.stack[k]).toNat ≤ 0x1000

/-- What holds in every state of a run: memory is canonical, the stack holds at most 16 addresses (R27), `I` is at most
`0x100F` (R24), `PC` at most `0x10FE` (R26), live return addresses at most `0x1000` (R140), and `ERR` is all zero until
the core halts (R32, R42). -/
structure State.Inv (s : State) : Prop where
  memory : s.memoryWf = true
  depth : s.sp.toNat ≤ 16
  returns : s.returnsBounded
  index : s.i.toNat ≤ 0x100F
  counter : s.pc.toNat ≤ 0x10FE
  noError : s.halt = false → s.err = ErrRecord.clear

/-- A core that fetches in its next Cycle: not halted and not waiting for a key (R121, R122). -/
abbrev State.running (s : State) : Prop := s.halt = false ∧ s.wait = false

/-- R131: the program has ended at address `nnn`: the core is running and the word at `PC` is a jump to itself. -/
def State.EndedAt (s : State) (nnn : Addr12) : Prop :=
  s.pc = zext16 nnn ∧ s.running ∧ s.fetchWord = some (encode (.jp nnn))

/-! ## Frames -/

/-- The parts of the state, for saying what an operation leaves unchanged (R38). -/
inductive Part where
  /-- `V[0]` to `V[15]`. -/
  | registers
  /-- `I`. -/
  | index
  /-- `PC`. -/
  | counter
  /-- `SP` and `STACK`. -/
  | stack
  /-- `DT`. -/
  | delay
  /-- `ST`. -/
  | sound
  /-- `TONE`. -/
  | tone
  /-- `MEM`. -/
  | memory
  /-- `WAIT` and `WAITREG`. -/
  | keyWait
  /-- `HALT` and `ERR`. -/
  | fault
  /-- `FB`. -/
  | screen
  /-- `KEY` and `RND`. -/
  | inputs
  /-- `FONTSET`. -/
  | font
  /-- The model's own schedule and draw counter. -/
  | host
  deriving DecidableEq, Repr

/-- `t` agrees with `s` on a part. Memory is compared byte by byte, as it reads. -/
def Part.same : Part → State → State → Prop
  | .registers, s, t => ∀ r, t.readV r = s.readV r
  | .index, s, t => t.i = s.i
  | .counter, s, t => t.pc = s.pc
  | .stack, s, t => t.sp = s.sp ∧ t.stack = s.stack
  | .delay, s, t => t.dt = s.dt
  | .sound, s, t => t.st = s.st
  | .tone, s, t => t.tone = s.tone
  | .memory, s, t => ∀ a, t.readByte a = s.readByte a
  | .keyWait, s, t => t.wait = s.wait ∧ t.waitReg = s.waitReg
  | .fault, s, t => t.halt = s.halt ∧ t.err = s.err
  | .screen, s, t => t.fb = s.fb
  | .inputs, s, t => t.key = s.key ∧ t.rnd = s.rnd
  | .font, s, t => t.fontset = s.fontset
  | .host, s, t => t.schedule = s.schedule ∧ t.draws = s.draws

/-- Every part but the ones listed is unchanged from `s` to `t`. -/
def OnlyChanges (parts : List Part) (s t : State) : Prop := ∀ p, p ∉ parts → p.same s t

/-- Every byte of memory outside the `n` bytes from `a` reads the same in `t` as in `s`. -/
def SameMemoryOutside (a n : Nat) (s t : State) : Prop :=
  ∀ b, (b < a ∨ a + n ≤ b) → t.readByte b = s.readByte b

/-! ## Sprites -/

/-- The bit of the sprite `Dxyn` that lands on the pixel in column `px`, row `py`, without the clipping: bit
`7 - (px - V[x])` of the byte at `I + (py - V[y])`, if the pixel is inside the sprite (R211, R214). -/
def spriteBit (s : State) (x y : RegIx) (n : Nibble) (px py : Nat) : Bool :=
  let cx := (s.readV x).toNat
  let cy := (s.readV y).toNat
  decide (cx ≤ px) && decide (px < cx + 8) && decide (cy ≤ py) && decide (py < cy + n.toNat) &&
    (s.readByte (s.i.toNat + (py - cy))).getLsbD (7 - (px - cx))

/-- Some pixel on the screen is lit in `s` and carries a set sprite bit: a collision (R214). -/
def Collides (s : State) (x y : RegIx) (n : Nibble) : Prop :=
  ∃ px py, px < 64 ∧ py < 32 ∧ getPixel s.fb px py = true ∧ spriteBit s x y n px py = true

end Sys2Proof.Machine

namespace Sys2Proof

open Sys2Proof.Machine

/-! ## What each instruction may write -/

/-- The parts an instruction may write (the "written by" column of R38), the halt state included where it can fault
(R240 to R245). -/
def Instr.touches : Instr → List Part
  | .cls => [.screen]
  | .ret => [.counter, .stack, .fault]
  | .call _ => [.counter, .stack, .fault]
  | .jp _ => [.counter]
  | .jpV0 _ => [.counter]
  | .seImm _ _ => [.counter]
  | .sneImm _ _ => [.counter]
  | .seReg _ _ => [.counter]
  | .sneReg _ _ => [.counter]
  | .ldImm _ _ => [.registers]
  | .addImm _ _ => [.registers]
  | .ldReg _ _ => [.registers]
  | .orReg _ _ => [.registers]
  | .andReg _ _ => [.registers]
  | .xorReg _ _ => [.registers]
  | .addReg _ _ => [.registers]
  | .subReg _ _ => [.registers]
  | .shr _ _ => [.registers]
  | .subnReg _ _ => [.registers]
  | .shl _ _ => [.registers]
  | .rnd _ _ => [.registers]
  | .ldI _ => [.index]
  | .drw _ _ _ => [.registers, .screen, .fault]
  | .skp _ => [.counter, .fault]
  | .sknp _ => [.counter, .fault]
  | .ldVxDT _ => [.registers]
  | .ldVxK _ => [.keyWait]
  | .ldDTVx _ => [.delay]
  | .ldSTVx _ => [.sound]
  | .addI _ => [.index, .registers]
  | .ldF _ => [.index]
  | .ldB _ => [.memory, .fault]
  | .stRegs _ => [.memory, .index, .fault]
  | .ldRegs _ => [.registers, .index, .fault]

/-- Whether an instruction may write register `r` (R23): its destination, `VF` where it is written as a flag (R21), and
`V[0] .. V[x]` for the block load. -/
def Instr.writesV : Instr → RegIx → Bool
  | .ldImm x _, r => r == x
  | .addImm x _, r => r == x
  | .ldReg x _, r => r == x
  | .orReg x _, r => r == x
  | .andReg x _, r => r == x
  | .xorReg x _, r => r == x
  | .addReg x _, r => r == x || r == VF
  | .subReg x _, r => r == x || r == VF
  | .shr x _, r => r == x || r == VF
  | .subnReg x _, r => r == x || r == VF
  | .shl x _, r => r == x || r == VF
  | .rnd x _, r => r == x
  | .drw _ _ _, r => r == VF
  | .ldVxDT x, r => r == x
  | .addI _, r => r == VF
  | .ldRegs x, r => r.toNat ≤ x.toNat
  | .cls, _ | .ret, _ | .jp _, _ | .call _, _ | .seImm _ _, _ | .sneImm _ _, _ | .seReg _ _, _ | .sneReg _ _, _
  | .ldI _, _ | .jpV0 _, _ | .skp _, _ | .sknp _, _ | .ldVxK _, _ | .ldDTVx _, _ | .ldSTVx _, _ | .ldF _, _ | .ldB _, _
  | .stRegs _, _ => false

end Sys2Proof
end

