-- ==== Sys2Proof/Certificates/Slice0/Obligations.lean ====
section
/-! DEFINITION. The statements for the provers, from the spec's numbered rules. `OnlyChanges parts s t` says that every
part of the state that is not listed is unchanged, memory read byte by byte among them. -/

open Sys2Proof Sys2Proof.Machine

/-! ## Encoding and decoding -/

/-- R91, R93, R95: encoding an instruction and decoding its bytes gives it back, with every operand at every value. -/
def Obligations.DecodeOfEncode : Prop :=
  ∀ (i : Instr) (rest : List Byte), i.wellFormed = true →
    decode (encode i) = .ok i ∧ decodeBytes (bytesOfWord (encode i) ++ rest) = .ok (i, rest)

/-- R91, R93: no bit of a legal word is dropped: encoding what it decodes to gives the word back. -/
def Obligations.EncodeOfDecode : Prop := ∀ (w : Word) (i : Instr), decode w = .ok i → encode i = w

/-- R96: the words the decoder rejects are exactly those of the table of illegal words. -/
def Obligations.DecoderRejectsExactlyIllegalWords : Prop :=
  ∀ w : Word, (∃ why, decode w = .error why) ↔ wordWellFormed w = false

/-- R95: a word is selected by at most one row of the opcode map, and by some row exactly when it decodes. -/
def Obligations.OpcodeMapIsDisjointAndComplete : Prop :=
  (∀ (w : Word) (r r' : OpcodeRow), r ∈ opcodeMap → r' ∈ opcodeMap → r.selects w = true → r'.selects w = true → r = r') ∧
  ∀ w : Word, (∃ r ∈ opcodeMap, r.selects w = true) ↔ ∃ i, decode w = .ok i

/-- R95: sixteen words, written out bit by bit from the opcode map, one of each of the sixteen families (R94). -/
def Obligations.SpecWordsDecode : Prop :=
  decode 0b0000000011100000 = .ok .cls ∧ decode 0b0001001000000100 = .ok (.jp 0x204) ∧
  decode 0b0010001100001010 = .ok (.call 0x30A) ∧ decode 0b0011101001000010 = .ok (.seImm 0xA 0x42) ∧
  decode 0b0100000000001111 = .ok (.sneImm 0x0 0x0F) ∧ decode 0b0101001000110000 = .ok (.seReg 0x2 0x3) ∧
  decode 0b0110101001111011 = .ok (.ldImm 0xA 0x7B) ∧ decode 0b0111000111111111 = .ok (.addImm 0x1 0xFF) ∧
  decode 0b1000000111110111 = .ok (.subnReg 0x1 0xF) ∧ decode 0b1001001000110000 = .ok (.sneReg 0x2 0x3) ∧
  decode 0b1010001011110000 = .ok (.ldI 0x2F0) ∧ decode 0b1011001100000000 = .ok (.jpV0 0x300) ∧
  decode 0b1100001100001111 = .ok (.rnd 0x3 0x0F) ∧ decode 0b1101000000010010 = .ok (.drw 0x0 0x1 0x2) ∧
  decode 0b1110001110011110 = .ok (.skp 0x3) ∧ decode 0b1111001001100101 = .ok (.ldRegs 0x2)

/-! ## Steps, Cycles and Ticks -/

/-- R120, and the model's choice of log 1: a step performs the operation at the head of the schedule, on the state with
that operation taken off, and a used-up schedule leaves the choice to the free value `Config.hostOp`. The three operations
are `cycle`, `tick` and `resetWith`, of which the statements below speak; around a Reset the host may clear its display
(R44; log 9). -/
def Obligations.StepPerformsNextOperation : Prop :=
  (∀ (s : State) (op : HostOp) (rest : List HostOp), s.schedule = op :: rest →
    step s = perform op { s with schedule := rest }) ∧
  (∀ s : State, s.schedule = [] → step s = perform (Config.hostOp s.draws) { s with draws := s.draws + 1 }) ∧
  (∀ (key : Keys) (rnd : Byte) (s : State), perform (.cycle key rnd) s = cycle key rnd s) ∧
  (∀ s : State, perform .tick s = .next (tick s)) ∧
  (∀ (rom : List Byte) (s : State), perform (.reset rom false) s = .next (resetWith rom s)) ∧
  ∀ (rom : List Byte) (s : State), perform (.reset rom true) s = .next (resetWith rom { s with fb := Framebuffer.off })

/-- R124, R65: when the next operation is a Cycle, the core is running and the two bytes at `PC`, high byte first, decode
to an instruction, the step is that instruction's meaning on the state with the inputs presented, `TONE` 0 (R45) and `PC`
advanced by 2. -/
def Obligations.StepRunsDecodedInstruction : Prop :=
  ∀ (s : State) (key : Keys) (rnd : Byte) (rest : List HostOp) (i : Instr),
    s.schedule = .cycle key rnd :: rest → s.running → s.pc.toNat ≤ 0xFFE →
    decode (wordOfBytes (s.readByte s.pc.toNat) (s.readByte (s.pc.toNat + 1))) = .ok i →
    i.wellFormed = true →
    step s = exec i { s with schedule := rest, key := key, rnd := rnd, tone := false, pc := s.pc + 2 }

/-- R121, R249 (the spec's decision D7): on a halted core a Cycle changes nothing but the ports, where `TONE` is 0 (R45), and
a Tick changes nothing and gives `TONE = 0`. -/
def Obligations.HaltedCoreChangesNothing : Prop :=
  ∀ s : State, s.halt = true →
    (∀ (key : Keys) (rnd : Byte), ∃ t, cycle key rnd s = .next t ∧ t.key = key ∧ t.rnd = rnd ∧ t.tone = false ∧
      OnlyChanges [.inputs, .tone] s t) ∧
    OnlyChanges [.tone] s (tick s) ∧ (tick s).tone = false

/-- R122, R130 (the spec's decision D34): a waiting core with no key held changes nothing but the ports, where `TONE` is 0
(R45); else it writes the lowest held key to `V[WAITREG]` and ends the wait. It executes no instruction and `PC` stays. -/
def Obligations.KeyWaitTakesLowestKey : Prop :=
  (∀ (s : State) (rnd : Byte), s.halt = false → s.wait = true →
    ∃ t, cycle 0 rnd s = .next t ∧ t.key = 0 ∧ t.rnd = rnd ∧ t.tone = false ∧ OnlyChanges [.inputs, .tone] s t) ∧
  ∀ (s : State) (key : Keys) (rnd : Byte) (k : Nat), s.halt = false → s.wait = true → k < 16 →
    keyHeld key k = true → (∀ j, j < k → keyHeld key j = false) →
    ∃ t, cycle key rnd s = .next t ∧ t.wait = false ∧ t.waitReg = s.waitReg ∧ t.key = key ∧ t.rnd = rnd ∧
      t.tone = false ∧ (∀ r, (t.readV r).toNat = if r = s.waitReg then k else (s.readV r).toNat) ∧
      OnlyChanges [.registers, .keyWait, .inputs, .tone] s t

/-- R131 (the spec's own definition of a program's end, D28): from a state that has ended at `nnn`, a Cycle changes nothing
but the ports, where `TONE` is 0 (R45), and the state has still ended there. -/
def Obligations.EndedProgramStaysEnded : Prop :=
  ∀ (s : State) (nnn : Addr12) (key : Keys) (rnd : Byte), s.EndedAt nnn →
    ∃ t, cycle key rnd s = .next t ∧ t.EndedAt nnn ∧ t.tone = false ∧ OnlyChanges [.inputs, .tone] s t

/-- R123 (the spec's decision D2): a fetch from `PC` above `0xFFE` raises `AddressRange` with the first address outside
the address space; `PC` is not advanced. -/
def Obligations.FetchOutsideMemoryHalts : Prop :=
  ∀ (s : State) (key : Keys) (rnd : Byte), s.running → 0xFFE < s.pc.toNat →
    ∃ t, cycle key rnd s = .next t ∧ t.halt = true ∧ t.err.code = .addressRange ∧ t.err.pc = s.pc ∧ t.err.word = 0 ∧
      t.err.info.toNat = (if 0xFFF < s.pc.toNat then s.pc.toNat else 0x1000) ∧ t.key = key ∧ t.rnd = rnd ∧
      t.tone = false ∧ OnlyChanges [.fault, .inputs, .tone] s t

/-- R240: a fetched word that no row of the opcode map selects raises `DecodeError`, code 1, with the word and its address
plus 2. That it halts the core, keeps `PC` as advanced and changes nothing else is R124, R126 and R249 with the spec's
decisions D6 and D7 (log 18); the ports are the model's choices of logs 2 and 10. -/
def Obligations.UnmatchedWordRaisesDecodeError : Prop :=
  ErrCode.number .decodeError = 1 ∧
  ∀ (s : State) (key : Keys) (rnd : Byte) (w : Word), s.running → s.pc.toNat ≤ 0xFFE →
    w = wordOfBytes (s.readByte s.pc.toNat) (s.readByte (s.pc.toNat + 1)) →
    (∀ r ∈ opcodeMap, r.selects w = false) →
    ∃ t, cycle key rnd s = .next t ∧ t.halt = true ∧ t.err = ⟨.decodeError, s.pc + 2, w, 0⟩ ∧ t.pc = s.pc + 2 ∧
      t.key = key ∧ t.rnd = rnd ∧ t.tone = false ∧ OnlyChanges [.fault, .counter, .inputs, .tone] s t

/-- R252: one Tick counts `DT` and `ST` down, each stopping at 0, and gives `TONE` when `ST` was above 0; it writes
nothing else. On a halted core it changes nothing and `TONE = 0`: that the timers freeze is the spec's decision D7 (R249;
log 18). -/
def Obligations.TickCountsTimersDown : Prop :=
  (∀ s : State, s.halt = false →
    (tick s).dt.toNat = s.dt.toNat - 1 ∧ (tick s).st.toNat = s.st.toNat - 1 ∧
    ((tick s).tone = true ↔ 0 < s.st.toNat) ∧ OnlyChanges [.delay, .sound, .tone] s (tick s)) ∧
  ∀ s : State, s.halt = true → OnlyChanges [.tone] s (tick s) ∧ (tick s).tone = false

/-- R253 (the spec's decision D31): with `ST = k` and no further write to it, the next `k` Ticks give `TONE = 1` and every
later one gives `TONE = 0`. -/
def Obligations.ToneSoundsForExactlySTTicks : Prop :=
  ∀ (n : Nat) (s : State), s.halt = false → ((tick^[n + 1] s).tone = true ↔ n < s.st.toNat)

/-- R128: a Cycle changes `DT` or `ST` only by executing `Fx15` or `Fx18`, and never produces `TONE`, which is 0 outside a
Tick (R45; the output is a field of the state, log 10). -/
def Obligations.CycleLeavesTimersAlone : Prop :=
  ∀ (key : Keys) (rnd : Byte) (s t : State), cycle key rnd s = .next t →
    t.tone = false ∧
    (t.dt = s.dt ∨ (s.running ∧ ∃ w x, s.fetchWord = some w ∧ decode w = .ok (.ldDTVx x) ∧ t.dt = s.readV x)) ∧
    (t.st = s.st ∨ (s.running ∧ ∃ w x, s.fetchWord = some w ∧ decode w = .ok (.ldSTVx x) ∧ t.st = s.readV x))

/-- R126, R249 (the spec's decisions D6 and D7): an instruction that halts the core has made none of its writes; `ERR`
holds `PC` as advanced and the instruction's own word. -/
def Obligations.FaultsArePrecise : Prop :=
  ∀ (i : Instr) (s t : State), s.halt = false → exec i s = .next t → t.halt = true →
    t.err.pc = s.pc ∧ t.err.word = encode i ∧ t.err.code ≠ .noError ∧ OnlyChanges [.fault] s t

/-- R251: a halted core stays halted, with the same `ERR`, under every operation but Reset. -/
def Obligations.OnlyResetLeavesHalt : Prop :=
  ∀ s t : State, s.halt = true → (∀ rom clears, s.nextOp ≠ .reset rom clears) → step s = .next t →
    t.halt = true ∧ t.err = s.err ∧ OnlyChanges [.tone, .inputs, .host] s t

/-! ## Reset -/

/-- R270, with R39 to R43 (values but `PC` the spec's decisions D7 to D11; logs 4 to 8) and R45 (`TONE` 0, in the field of log 10): Reset
sets every core register to its reset value, whatever the ROM; with a ROM that fits it clears `HALT` and `ERR` and sets
memory to font, ROM and zeros, whatever `FONTSET` the build has; with a longer one the core halts with `CapacityError` and
no ROM byte is copied (R70, D29). -/
def Obligations.ResetRebuildsCore : Prop :=
  (∀ (rom : List Byte) (s : State),
    let t := resetWith rom s
    (∀ r, t.readV r = 0) ∧ t.i = 0 ∧ t.pc = 0x200 ∧ t.sp = 0 ∧ (∀ k : Fin 16, t.stack[k] = 0) ∧ t.dt = 0 ∧ t.st = 0 ∧
    t.tone = false ∧ t.wait = false ∧ t.waitReg = 0) ∧
  (∀ (rom : List Byte) (s : State), rom.length ≤ 3584 →
    let t := resetWith rom s
    t.halt = false ∧ t.err = ErrRecord.clear ∧
    ∀ a, a < 4096 → t.readByte a =
      if h : a < 80 then s.fontset[a] else if 0x200 ≤ a then rom.getD (a - 0x200) 0 else 0) ∧
  ∀ (rom : List Byte) (s : State), 3584 < rom.length →
    let t := resetWith rom s
    t.halt = true ∧ t.err.code = .capacityError ∧
    ∀ a, a < 4096 → t.readByte a = if h : a < 80 then s.fontset[a] else 0

/-- R44, R45, R270 (the spec's decisions D12 and D37): Reset leaves the framebuffer, the keys and the random input, which
are not the core's; the host may clear its display with it (log 9). -/
def Obligations.ResetLeavesCollaborators : Prop :=
  (∀ (rom : List Byte) (s : State),
    OnlyChanges [.registers, .index, .counter, .stack, .delay, .sound, .tone, .memory, .keyWait, .fault] s
      (resetWith rom s)) ∧
  ∀ (rom : List Byte) (clears : Bool) (s : State), ∃ t, perform (.reset rom clears) s = .next t ∧
    ∀ px py, px < 64 → py < 32 → getPixel t.fb px py = (!clears && getPixel s.fb px py)

/-- R241: a ROM longer than 3584 bytes raises `CapacityError`, code 2, at Reset with `ERR.pc = 0x0200`, `ERR.word = 0` and
the length; a shorter one does not, and neither a Cycle nor a Tick raises it. That the failed load halts the core is the
spec's decision D29 (R70; log 18). -/
def Obligations.OversizedRomRaisesCapacityError : Prop :=
  ErrCode.number .capacityError = 2 ∧
  (∀ (rom : List Byte) (s : State), 3584 < rom.length →
    (resetWith rom s).halt = true ∧ (resetWith rom s).err = ⟨.capacityError, 0x200, 0, BitVec.ofNat 16 rom.length⟩) ∧
  (∀ (rom : List Byte) (s : State), rom.length ≤ 3584 → (resetWith rom s).halt = false) ∧
  (∀ (key : Keys) (rnd : Byte) (s t : State), cycle key rnd s = .next t → t.err.code = .capacityError →
    t.err = s.err ∧ t.halt = s.halt) ∧
  ∀ s : State, (tick s).err = s.err ∧ (tick s).halt = s.halt

/-- R39 and R271, with the model's choices of logs 2 to 10: the power-on state is what Reset with an empty ROM makes of
any state, but for the display, the inputs, the build's `FONTSET` and the schedule, which the core does not reset. -/
def Obligations.PowerOnIsResetWithEmptyRom : Prop :=
  State.reset.pc = 0x200 ∧ (∀ px py, getPixel State.reset.fb px py = false) ∧
  ∀ s : State, resetWith [] s =
    { State.reset with
      fb := s.fb, key := s.key, rnd := s.rnd, fontset := s.fontset, schedule := s.schedule, draws := s.draws }

/-! ## Control flow -/

/-- R141: `1nnn` sets `PC` to `nnn` and nothing else, with no fault at the jump; the next fetch is impossible only for
`nnn = 0xFFF`, where the following Cycle raises `AddressRange` (R123, the spec's decision D2; logs 18 and 23). -/
def Obligations.JumpSetsCounter : Prop :=
  ∀ (nnn : Addr12) (s : State), ∃ t, exec (.jp nnn) s = .next t ∧ t.pc.toNat = nnn.toNat ∧ OnlyChanges [.counter] s t ∧
    (nnn ≠ 0xFFF → ∃ w, t.fetchWord = some w) ∧
    (nnn = 0xFFF → s.running → ∀ (key : Keys) (rnd : Byte), ∃ u, cycle key rnd t = .next u ∧ u.halt = true ∧
      u.err = ⟨.addressRange, 0xFFF, 0, 0x1000⟩ ∧ u.pc = 0xFFF)

/-- R142: with room on the stack, `2nnn` pushes the advanced `PC`, increments `SP` and jumps. -/
def Obligations.CallPushesReturnAddress : Prop :=
  ∀ (nnn : Addr12) (s : State), s.sp.toNat < 16 →
    ∃ t, exec (.call nnn) s = .next t ∧ t.sp.toNat = s.sp.toNat + 1 ∧
      (∀ k : Fin 16, t.stack[k] = if k.val = s.sp.toNat then s.pc else s.stack[k]) ∧ t.pc.toNat = nnn.toNat ∧
      OnlyChanges [.counter, .stack] s t

/-- R140: with 1 to 16 addresses held, `00EE` decrements `SP` and jumps to the entry it uncovers, which it does not
clear. -/
def Obligations.ReturnPopsAddress : Prop :=
  ∀ (s : State) (k : Fin 16), s.sp.toNat = k.val + 1 →
    ∃ t, exec .ret s = .next t ∧ t.sp.toNat = k.val ∧ t.pc = s.stack[k] ∧ t.stack = s.stack ∧
      OnlyChanges [.counter, .stack] s t

/-- R243, R244 (the spec's decisions D3 and D4): a call with 16 addresses held and a return with none halt the core, with
nothing pushed or popped and `PC` as advanced. -/
def Obligations.StackFaultsHalt : Prop :=
  (∀ (nnn : Addr12) (s : State), s.sp.toNat = 16 →
    exec (.call nnn) s = .next { s with halt := true, err := ⟨.stackOverflow, s.pc, encode (.call nnn), 0⟩ }) ∧
  ∀ s : State, s.sp.toNat = 0 → exec .ret s = .next { s with halt := true, err := ⟨.stackUnderflow, s.pc, 0x00EE, 0⟩ }

/-- The property the source gives in R140 and S11: a call and a return from any state with the same stack bring back the
value `PC` had right after the call's fetch, and the depth. -/
def Obligations.CallThenReturnRoundTrip : Prop :=
  ∀ (nnn : Addr12) (s t u : State), s.sp.toNat < 16 → exec (.call nnn) s = .next t → u.sp = t.sp → u.stack = t.stack →
    ∃ r, exec .ret u = .next r ∧ r.pc = s.pc ∧ r.sp = s.sp ∧ r.stack = t.stack ∧ OnlyChanges [.counter, .stack] u r

/-- R143, R144: `3xnn` skips exactly when `V[x] = nn`, `4xnn` exactly when it differs. -/
def Obligations.SkipsOnImmediate : Prop :=
  ∀ (x : RegIx) (nn : Byte) (s : State),
    (∃ t, exec (.seImm x nn) s = .next t ∧ t.pc = (if s.readV x = nn then s.pc + 2 else s.pc) ∧
      OnlyChanges [.counter] s t) ∧
    ∃ t, exec (.sneImm x nn) s = .next t ∧ t.pc = (if s.readV x = nn then s.pc else s.pc + 2) ∧ OnlyChanges [.counter] s t

/-- R145, R146: `5xy0` skips exactly when `V[x] = V[y]`, `9xy0` exactly when they differ. -/
def Obligations.SkipsOnRegisters : Prop :=
  ∀ (x y : RegIx) (s : State),
    (∃ t, exec (.seReg x y) s = .next t ∧ t.pc = (if s.readV x = s.readV y then s.pc + 2 else s.pc) ∧
      OnlyChanges [.counter] s t) ∧
    ∃ t, exec (.sneReg x y) s = .next t ∧ t.pc = (if s.readV x = s.readV y then s.pc else s.pc + 2) ∧
      OnlyChanges [.counter] s t

/-- R147 (the spec's decision D33): `Bnnn` jumps to the exact sum of `nnn` and `V[0]`, not wrapped to 12 bits. -/
def Obligations.IndexedJumpAddsV0 : Prop :=
  ∀ (nnn : Addr12) (s : State), ∃ t, exec (.jpV0 nnn) s = .next t ∧ t.pc.toNat = nnn.toNat + (s.readV 0).toNat ∧
    OnlyChanges [.counter] s t

/-! ## ALU -/

/-- R160, R162: load immediate and copy register write `V[x]` and nothing else. -/
def Obligations.LoadsWriteDestination : Prop :=
  ∀ (x y : RegIx) (nn : Byte) (s : State),
    (∃ t, exec (.ldImm x nn) s = .next t ∧ (∀ r, t.readV r = if r = x then nn else s.readV r) ∧
      OnlyChanges [.registers] s t) ∧
    ∃ t, exec (.ldReg x y) s = .next t ∧ (∀ r, t.readV r = if r = x then s.readV y else s.readV r) ∧
      OnlyChanges [.registers] s t

/-- R161: `7xnn` adds modulo 256 and writes no flag. -/
def Obligations.AddImmediateWraps : Prop :=
  ∀ (x : RegIx) (nn : Byte) (s : State), ∃ t, exec (.addImm x nn) s = .next t ∧
    (∀ r, (t.readV r).toNat = if r = x then ((s.readV x).toNat + nn.toNat) % 256 else (s.readV r).toNat) ∧
    OnlyChanges [.registers] s t

/-- R163, R164, R165: OR, AND and XOR, bit by bit; `VF` is not written unless it is the destination. -/
def Obligations.LogicIsBitwise : Prop :=
  ∀ (x y : RegIx) (s : State),
    (∃ t, exec (.orReg x y) s = .next t ∧
      (∀ k, (t.readV x).getLsbD k = ((s.readV x).getLsbD k || (s.readV y).getLsbD k)) ∧
      (∀ r, r ≠ x → t.readV r = s.readV r) ∧ OnlyChanges [.registers] s t) ∧
    (∃ t, exec (.andReg x y) s = .next t ∧
      (∀ k, (t.readV x).getLsbD k = ((s.readV x).getLsbD k && (s.readV y).getLsbD k)) ∧
      (∀ r, r ≠ x → t.readV r = s.readV r) ∧ OnlyChanges [.registers] s t) ∧
    ∃ t, exec (.xorReg x y) s = .next t ∧
      (∀ k, (t.readV x).getLsbD k = ((s.readV x).getLsbD k ^^ (s.readV y).getLsbD k)) ∧
      (∀ r, r ≠ x → t.readV r = s.readV r) ∧ OnlyChanges [.registers] s t

/-- R166: `8xy4` writes the sum modulo 256, then `VF` with 1 exactly when the exact sum exceeds 255; with `x = 15` the flag
overwrites the result, operands first and flag last being R127 with the spec's decision D14 (log 12). -/
def Obligations.AddSetsCarry : Prop :=
  ∀ (x y : RegIx) (s : State), ∃ t, exec (.addReg x y) s = .next t ∧
    (∀ r, (t.readV r).toNat =
      if r = 15 then (if 255 < (s.readV x).toNat + (s.readV y).toNat then 1 else 0)
      else if r = x then ((s.readV x).toNat + (s.readV y).toNat) % 256 else (s.readV r).toNat) ∧
    OnlyChanges [.registers] s t

/-- R167, R169: `8xy5` writes `V[x] - V[y]` and `8xy7` writes `V[y] - V[x]`, modulo 256, then `VF` with 1 exactly when the
minuend is at least the subtrahend; operands first and flag last is R127 with the spec's decision D14 (log 12). -/
def Obligations.SubtractSetsNoBorrow : Prop :=
  ∀ (x y : RegIx) (s : State),
    (∃ t, exec (.subReg x y) s = .next t ∧
      (∀ r, (t.readV r).toNat =
        if r = 15 then (if (s.readV y).toNat ≤ (s.readV x).toNat then 1 else 0)
        else if r = x then (((s.readV x).toNat : Int) - (s.readV y).toNat) % 256 else ((s.readV r).toNat : Int)) ∧
      OnlyChanges [.registers] s t) ∧
    ∃ t, exec (.subnReg x y) s = .next t ∧
      (∀ r, (t.readV r).toNat =
        if r = 15 then (if (s.readV x).toNat ≤ (s.readV y).toNat then 1 else 0)
        else if r = x then (((s.readV y).toNat : Int) - (s.readV x).toNat) % 256 else ((s.readV r).toNat : Int)) ∧
      OnlyChanges [.registers] s t

/-- R168, R170 (the operand is the spec's decision D13; log 13): the shifts move `V[x]` by one bit, whatever `y` is, and
write the bit shifted out to `VF`, flag last (R127, the spec's decision D14; log 12). -/
def Obligations.ShiftsMoveOneBit : Prop :=
  ∀ (x y : RegIx) (s : State),
    (∃ t, exec (.shr x y) s = .next t ∧
      (∀ r, (t.readV r).toNat =
        if r = 15 then (s.readV x).toNat % 2 else if r = x then (s.readV x).toNat / 2 else (s.readV r).toNat) ∧
      OnlyChanges [.registers] s t) ∧
    ∃ t, exec (.shl x y) s = .next t ∧
      (∀ r, (t.readV r).toNat =
        if r = 15 then (s.readV x).toNat / 128 else if r = x then (s.readV x).toNat * 2 % 256 else (s.readV r).toNat) ∧
      OnlyChanges [.registers] s t

/-- R171 (`RND` is an unconstrained input by the spec's decision D23): `Cxnn` run in a Cycle with any random byte writes
that byte masked by `nn`. -/
def Obligations.RandomIsMaskedInput : Prop :=
  ∀ (x : RegIx) (nn : Byte) (s : State), ∃ t, exec (.rnd x nn) s = .next t ∧
    (∀ k, (t.readV x).getLsbD k = (s.rnd.getLsbD k && nn.getLsbD k)) ∧ (∀ r, r ≠ x → t.readV r = s.readV r) ∧
    OnlyChanges [.registers] s t

/-! ## Index register and memory -/

/-- R190: `Annn` sets `I` to `nnn`, its four high bits 0. -/
def Obligations.LoadIndexZeroExtends : Prop :=
  ∀ (nnn : Addr12) (s : State), ∃ t, exec (.ldI nnn) s = .next t ∧ t.i.toNat = nnn.toNat ∧ OnlyChanges [.index] s t

/-- R192 (no masking is the spec's decision D35; log 16): `Fx29` sets `I` to five times the whole byte `V[x]`. -/
def Obligations.GlyphAddressIsFiveTimes : Prop :=
  ∀ (x : RegIx) (s : State), ∃ t, exec (.ldF x) s = .next t ∧ t.i.toNat = (s.readV x).toNat * 5 ∧
    OnlyChanges [.index] s t

/-- R191 (the 0 without overflow is the spec's decision D15; log 12): `Fx1E` adds modulo 4096, then writes `VF` with 1
exactly when the exact sum exceeds `0xFFF`. -/
def Obligations.AddToIndexWraps : Prop :=
  ∀ (x : RegIx) (s : State), ∃ t, exec (.addI x) s = .next t ∧
    t.i.toNat = (s.i.toNat + (s.readV x).toNat) % 4096 ∧
    (∀ r, (t.readV r).toNat =
      if r = 15 then (if 0xFFF < s.i.toNat + (s.readV x).toNat then 1 else 0) else (s.readV r).toNat) ∧
    OnlyChanges [.index, .registers] s t

/-- R193: with its three addresses in range, `Fx33` writes hundreds, tens and units of `V[x]` at `I`, `I + 1`, `I + 2`, and
no other byte. -/
def Obligations.DecimalDigitsAreStored : Prop :=
  ∀ (x : RegIx) (s : State), s.i.toNat ≤ 0xFFD →
    ∃ t, exec (.ldB x) s = .next t ∧
      (t.readByte s.i.toNat).toNat = (s.readV x).toNat / 100 ∧
      (t.readByte (s.i.toNat + 1)).toNat = (s.readV x).toNat / 10 % 10 ∧
      (t.readByte (s.i.toNat + 2)).toNat = (s.readV x).toNat % 10 ∧
      SameMemoryOutside s.i.toNat 3 s t ∧ OnlyChanges [.memory] s t

/-- R194 (16-bit update of `I` by the spec's decision D25): with the block in range, `Fx55` stores `V[0] .. V[x]` from `I`
up, no other byte, and adds `x + 1` to `I`. -/
def Obligations.RegistersAreStored : Prop :=
  ∀ (x : RegIx) (s : State), s.i.toNat + x.toNat ≤ 0xFFF →
    ∃ t, exec (.stRegs x) s = .next t ∧
      (∀ r : RegIx, r.toNat ≤ x.toNat → t.readByte (s.i.toNat + r.toNat) = s.readV r) ∧
      SameMemoryOutside s.i.toNat (x.toNat + 1) s t ∧ t.i.toNat = s.i.toNat + x.toNat + 1 ∧
      OnlyChanges [.memory, .index] s t

/-- R195 (16-bit update of `I` by the spec's decision D25): with the block in range, `Fx65` loads `V[0] .. V[x]` from `I`
up, no other register, and adds `x + 1` to `I`. -/
def Obligations.RegistersAreLoaded : Prop :=
  ∀ (x : RegIx) (s : State), s.i.toNat + x.toNat ≤ 0xFFF →
    ∃ t, exec (.ldRegs x) s = .next t ∧
      (∀ r : RegIx, t.readV r = if r.toNat ≤ x.toNat then s.readByte (s.i.toNat + r.toNat) else s.readV r) ∧
      t.i.toNat = s.i.toNat + x.toNat + 1 ∧ OnlyChanges [.registers, .index] s t

/-- R242 (the spec's decisions D2, D6 and D25): a block that reaches above `0xFFF` halts the core with the first address
outside, before any transfer. -/
def Obligations.BlockOutsideMemoryHalts : Prop :=
  ∀ (i : Instr) (len : Nat) (s : State),
    ((∃ x, i = .ldB x ∧ len = 3) ∨ (∃ x : RegIx, i = .stRegs x ∧ len = x.toNat + 1) ∨
      (∃ x : RegIx, i = .ldRegs x ∧ len = x.toNat + 1) ∨ ∃ x y n, i = .drw x y n ∧ len = n.toNat) →
    0 < len → 0xFFF < s.i.toNat + len - 1 →
    exec i s = .next { s with
      halt := true
      err := ⟨.addressRange, s.pc, encode i, if 0xFFF < s.i.toNat then s.i else 0x1000⟩ }

/-- R73: code that `Fx55` stores is what the next fetch reads. -/
def Obligations.StoredCodeIsFetched : Prop :=
  ∀ (x r r' : RegIx) (s t u : State), s.i.toNat + x.toNat ≤ 0xFFF → r'.toNat = r.toNat + 1 → r'.toNat ≤ x.toNat →
    exec (.stRegs x) s = .next t → (∀ a, u.readByte a = t.readByte a) →
    u.pc.toNat = s.i.toNat + r.toNat →
    u.fetchWord = some (wordOfBytes (s.readV r) (s.readV r'))

/-! ## Display -/

/-- R210: `00E0` turns every pixel off and changes nothing else. -/
def Obligations.ClearScreenTurnsPixelsOff : Prop :=
  ∀ s : State, ∃ t, exec .cls s = .next t ∧ (∀ px py, getPixel t.fb px py = false) ∧ OnlyChanges [.screen] s t

/-- R211 by the closed form R214 (bit order, clipping and the clear of `VF` are the spec's decisions D16 to D19; logs 12
and 15): `Dxyn` with its bytes in range XORs the clipped sprite into the framebuffer and sets `VF` exactly on a collision. -/
def Obligations.DrawXorsClippedSprite : Prop :=
  ∀ (x y : RegIx) (n : Nibble) (s : State), n.toNat = 0 ∨ s.i.toNat + n.toNat - 1 ≤ 0xFFF →
    ∃ t, exec (.drw x y n) s = .next t ∧
      (∀ px py, px < 64 → py < 32 → getPixel t.fb px py = (getPixel s.fb px py ^^ spriteBit s x y n px py)) ∧
      (Collides s x y n → t.readV 15 = 1) ∧ (¬Collides s x y n → t.readV 15 = 0) ∧
      (∀ r, r ≠ 15 → t.readV r = s.readV r) ∧ OnlyChanges [.registers, .screen] s t

/-- R211 (h): drawing the same sprite twice at the same place restores the framebuffer, and the second draw reports a
collision exactly when the first lit a pixel. -/
def Obligations.DrawTwiceRestoresScreen : Prop :=
  ∀ (x y : RegIx) (n : Nibble) (s t u : State), s.halt = false → exec (.drw x y n) s = .next t → t.halt = false →
    t.readV x = s.readV x → t.readV y = s.readV y → exec (.drw x y n) t = .next u →
    u.fb = s.fb ∧
    (u.readV 15 = 1 ↔ ∃ px py, px < 64 ∧ py < 32 ∧ getPixel s.fb px py = false ∧ getPixel t.fb px py = true)

/-- The property the source gives in R211 (a) and S7: a sprite wholly off the right or the bottom edge leaves the
framebuffer unchanged and gives `VF = 0`. -/
def Obligations.OffScreenDrawChangesNoPixel : Prop :=
  ∀ (x y : RegIx) (n : Nibble) (s : State), n.toNat = 0 ∨ s.i.toNat + n.toNat - 1 ≤ 0xFFF →
    64 ≤ (s.readV x).toNat ∨ 32 ≤ (s.readV y).toNat →
    ∃ t, exec (.drw x y n) s = .next t ∧ t.fb = s.fb ∧ t.readV 15 = 0

/-! ## Keyboard and timers -/

/-- R220, R221: with `V[x]` naming a key, `Ex9E` skips exactly when it is held in the sample and `ExA1` exactly when it is
not. -/
def Obligations.KeySkipsTestSample : Prop :=
  ∀ (x : RegIx) (s : State), (s.readV x).toNat ≤ 15 →
    (∃ t, exec (.skp x) s = .next t ∧
      t.pc = (if s.key.getLsbD (s.readV x).toNat = true then s.pc + 2 else s.pc) ∧ OnlyChanges [.counter] s t) ∧
    ∃ t, exec (.sknp x) s = .next t ∧
      t.pc = (if s.key.getLsbD (s.readV x).toNat = true then s.pc else s.pc + 2) ∧ OnlyChanges [.counter] s t

/-- R245 (the spec's decision D5): a key index above 15 halts the core. -/
def Obligations.KeyIndexOutOfRangeHalts : Prop :=
  ∀ (x : RegIx) (s : State), 15 < (s.readV x).toNat →
    exec (.skp x) s =
      .next { s with halt := true, err := ⟨.keyIndexRange, s.pc, encode (.skp x), (s.readV x).setWidth 16⟩ } ∧
    exec (.sknp x) s =
      .next { s with halt := true, err := ⟨.keyIndexRange, s.pc, encode (.sknp x), (s.readV x).setWidth 16⟩ }

/-- R222: `Fx0A` sets `WAIT` and `WAITREG`, and writes nothing else. -/
def Obligations.KeyWaitIsEntered : Prop :=
  ∀ (x : RegIx) (s : State), ∃ t, exec (.ldVxK x) s = .next t ∧ t.wait = true ∧ t.waitReg = x ∧ OnlyChanges [.keyWait] s t

/-- R223, R224, R225 (which moves which way is the spec's decision D22; log 14): the timer moves. -/
def Obligations.TimerMoves : Prop :=
  ∀ (x : RegIx) (s : State),
    (∃ t, exec (.ldVxDT x) s = .next t ∧ (∀ r, t.readV r = if r = x then s.dt else s.readV r) ∧
      OnlyChanges [.registers] s t) ∧
    (∃ t, exec (.ldDTVx x) s = .next t ∧ t.dt = s.readV x ∧ OnlyChanges [.delay] s t) ∧
    ∃ t, exec (.ldSTVx x) s = .next t ∧ t.st = s.readV x ∧ OnlyChanges [.sound] s t

/-! ## Whole-machine rules -/

/-- R38, R67: an instruction changes only the parts of the state that the summary table lists for it; memory only by
`Fx33` and `Fx55`, the framebuffer only by `00E0` and `Dxyn`, the stack only by `2nnn` and `00EE`. -/
def Obligations.InstructionChangesOnlyItsParts : Prop :=
  ∀ (i : Instr) (s t : State), exec i s = .next t → OnlyChanges i.touches s t

/-- R23: an instruction changes only the general registers the rule lists for it. -/
def Obligations.InstructionWritesOnlyItsRegisters : Prop :=
  ∀ (i : Instr) (s t : State) (r : RegIx), exec i s = .next t → i.writesV r = false → t.readV r = s.readV r

/-- R67: a store changes only the bytes of its block at `I`, whichever way it ends. -/
def Obligations.StoresChangeOnlyTheirBlock : Prop :=
  (∀ (x : RegIx) (s t : State), exec (.ldB x) s = .next t → SameMemoryOutside s.i.toNat 3 s t) ∧
  ∀ (x : RegIx) (s t : State), exec (.stRegs x) s = .next t → SameMemoryOutside s.i.toNat (x.toNat + 1) s t

/-- R27, R28 and the model's stop of log 11: an instruction answers a next state, but for a return and a call with `SP`
above 16, where the stack has no entry to touch. -/
def Obligations.ExecStopsOnlyWithoutStackEntry : Prop :=
  ∀ (i : Instr) (s : State), (∃ t, exec i s = .next t) ∨
    (16 < s.sp.toNat ∧ (i = .ret ∨ ∃ nnn, i = .call nnn) ∧ exec i s = .fault .noStackEntry)

/-- From R120 and R126: in every state that keeps the invariant, whatever the host does next, the step answers a next
state: no operation of the core ends a run. -/
def Obligations.StepNeverStops : Prop := ∀ s : State, s.Inv → ∃ t, step s = .next t

/-- R24, R26, R27, R140: the reset state keeps the invariant. -/
def Obligations.ResetHoldsInvariant : Prop := State.reset.Inv

/-- R24, R26, R27, R140, R32: every step keeps the invariant: memory canonical, `SP` at most 16, live return addresses at
most `0x1000`, `I` at most `0x100F`, `PC` at most `0x10FE`, and `ERR` zero until the core halts. -/
def Obligations.EveryStepKeepsInvariant : Prop := ∀ s t : State, s.Inv → step s = .next t → t.Inv

/-- R60, R64, R69: every step keeps memory canonical, with every cell inside the 4096 bytes, from any state whatever; and no
step changes the build's `FONTSET` (R6). -/
def Obligations.EveryStepKeepsMemoryCanonical : Prop :=
  ∀ s t : State, s.memoryWf = true → step s = .next t → t.memoryWf = true ∧ t.fontset = s.fontset
end

