-- ==== Sys2Proof/Laws/Encoding.lean ====
section
/-! SUPPORT. Fields of a packed word, the packed fields of a word, and the bytes of a word. -/

namespace Sys2Proof

/-! ### The fields of a packed word -/

section
variable (op x y n : BitVec 4) (nn : Byte) (nnn : Addr12)

theorem packXYN_toNat : (packXYN op x y n).toNat = op.toNat * 4096 + x.toNat * 256 + y.toNat * 16 + n.toNat := by
  simp only [packXYN, BitVec.toNat_append]
  rw [← Nat.shiftLeft_add_eq_or_of_lt x.isLt, ← Nat.shiftLeft_add_eq_or_of_lt y.isLt,
    ← Nat.shiftLeft_add_eq_or_of_lt n.isLt]
  simp only [Nat.shiftLeft_eq]; omega

theorem packXNN_toNat : (packXNN op x nn).toNat = op.toNat * 4096 + x.toNat * 256 + nn.toNat := by
  simp only [packXNN, BitVec.toNat_append]
  rw [← Nat.shiftLeft_add_eq_or_of_lt x.isLt, ← Nat.shiftLeft_add_eq_or_of_lt nn.isLt]
  simp only [Nat.shiftLeft_eq]; omega

theorem packNNN_toNat : (packNNN op nnn).toNat = op.toNat * 4096 + nnn.toNat := by
  simp only [packNNN, BitVec.toNat_append]
  rw [← Nat.shiftLeft_add_eq_or_of_lt nnn.isLt]
  simp only [Nat.shiftLeft_eq]

end

/-! ### The fields of a word, as numbers (R7) -/

section
variable (w : Word)

theorem fieldOp_toNat : (fieldOp w).toNat = w.toNat / 4096 := by
  simp only [fieldOp, BitVec.extractLsb'_toNat, Nat.shiftRight_eq_div_pow]; have := w.isLt; omega

theorem fieldX_toNat : (fieldX w).toNat = w.toNat / 256 % 16 := by
  simp only [fieldX, BitVec.extractLsb'_toNat, Nat.shiftRight_eq_div_pow]

theorem fieldY_toNat : (fieldY w).toNat = w.toNat / 16 % 16 := by
  simp only [fieldY, BitVec.extractLsb'_toNat, Nat.shiftRight_eq_div_pow]

theorem fieldN_toNat : (fieldN w).toNat = w.toNat % 16 := by
  simp only [fieldN, BitVec.extractLsb'_toNat, Nat.shiftRight_zero]

theorem fieldNN_toNat : (fieldNN w).toNat = w.toNat % 256 := by
  simp only [fieldNN, BitVec.extractLsb'_toNat, Nat.shiftRight_zero]

theorem fieldNNN_toNat : (fieldNNN w).toNat = w.toNat % 4096 := by
  simp only [fieldNNN, BitVec.extractLsb'_toNat, Nat.shiftRight_zero]

theorem highByte_toNat : (highByte w).toNat = w.toNat / 256 := by
  simp only [highByte, BitVec.extractLsb'_toNat, Nat.shiftRight_eq_div_pow]; have := w.isLt; omega

theorem lowByte_toNat : (lowByte w).toNat = w.toNat % 256 := by
  simp only [lowByte, BitVec.extractLsb'_toNat, Nat.shiftRight_zero]

end

theorem wordOfBytes_toNat (high low : Byte) : (wordOfBytes high low).toNat = high.toNat * 256 + low.toNat := by
  simp only [wordOfBytes, BitVec.toNat_append]
  rw [← Nat.shiftLeft_add_eq_or_of_lt low.isLt]
  simp only [Nat.shiftLeft_eq]

@[simp] theorem zext16_toNat (nnn : Addr12) : (zext16 nnn).toNat = nnn.toNat := by
  simp only [zext16, BitVec.toNat_setWidth]; have := nnn.isLt; omega

/-! ### Fields of packed words, packed fields of words -/

section
variable (op x y n : BitVec 4) (nn : Byte) (nnn : Addr12)

@[simp] theorem fieldOp_packXYN : fieldOp (packXYN op x y n) = op := by
  apply BitVec.eq_of_toNat_eq; rw [fieldOp_toNat, packXYN_toNat]; omega
@[simp] theorem fieldX_packXYN : fieldX (packXYN op x y n) = x := by
  apply BitVec.eq_of_toNat_eq; rw [fieldX_toNat, packXYN_toNat]; omega
@[simp] theorem fieldY_packXYN : fieldY (packXYN op x y n) = y := by
  apply BitVec.eq_of_toNat_eq; rw [fieldY_toNat, packXYN_toNat]; omega
@[simp] theorem fieldN_packXYN : fieldN (packXYN op x y n) = n := by
  apply BitVec.eq_of_toNat_eq; rw [fieldN_toNat, packXYN_toNat]; omega
@[simp] theorem fieldOp_packXNN : fieldOp (packXNN op x nn) = op := by
  apply BitVec.eq_of_toNat_eq; rw [fieldOp_toNat, packXNN_toNat]; omega
@[simp] theorem fieldX_packXNN : fieldX (packXNN op x nn) = x := by
  apply BitVec.eq_of_toNat_eq; rw [fieldX_toNat, packXNN_toNat]; omega
@[simp] theorem fieldNN_packXNN : fieldNN (packXNN op x nn) = nn := by
  apply BitVec.eq_of_toNat_eq; rw [fieldNN_toNat, packXNN_toNat]; omega
@[simp] theorem fieldOp_packNNN : fieldOp (packNNN op nnn) = op := by
  apply BitVec.eq_of_toNat_eq; rw [fieldOp_toNat, packNNN_toNat]; omega
@[simp] theorem fieldNNN_packNNN : fieldNNN (packNNN op nnn) = nnn := by
  apply BitVec.eq_of_toNat_eq; rw [fieldNNN_toNat, packNNN_toNat]; omega

end

theorem packXYN_fields (w : Word) : packXYN (fieldOp w) (fieldX w) (fieldY w) (fieldN w) = w := by
  apply BitVec.eq_of_toNat_eq; rw [packXYN_toNat, fieldOp_toNat, fieldX_toNat, fieldY_toNat, fieldN_toNat]; omega

theorem packXNN_fields (w : Word) : packXNN (fieldOp w) (fieldX w) (fieldNN w) = w := by
  apply BitVec.eq_of_toNat_eq; rw [packXNN_toNat, fieldOp_toNat, fieldX_toNat, fieldNN_toNat]; omega

theorem packNNN_fields (w : Word) : packNNN (fieldOp w) (fieldNNN w) = w := by
  apply BitVec.eq_of_toNat_eq; rw [packNNN_toNat, fieldOp_toNat, fieldNNN_toNat]; omega

@[simp] theorem wordOfBytes_high_low (w : Word) : wordOfBytes (highByte w) (lowByte w) = w := by
  apply BitVec.eq_of_toNat_eq; rw [wordOfBytes_toNat, highByte_toNat, lowByte_toNat]; omega

@[simp] theorem decodeBytes_bytesOfWord (w : Word) (rest : List Byte) :
    decodeBytes (bytesOfWord w ++ rest) = (decode w).map (·, rest) := by
  simp [decodeBytes, bytesOfWord]

/-- The sixteen values of a nibble: the case split of the two-level dispatch (R94). -/
theorem nibble_cases (a : BitVec 4) :
    a = 0#4 ∨ a = 1#4 ∨ a = 2#4 ∨ a = 3#4 ∨ a = 4#4 ∨ a = 5#4 ∨ a = 6#4 ∨ a = 7#4 ∨
    a = 8#4 ∨ a = 9#4 ∨ a = 10#4 ∨ a = 11#4 ∨ a = 12#4 ∨ a = 13#4 ∨ a = 14#4 ∨ a = 15#4 := by
  decide +revert

end Sys2Proof
end

