-- ==== Sys2Proof/Laws/Memory.lean ====
section
/-! SUPPORT. Memory: a read after a write, on any cell list, and the canonical form, which every operation keeps. -/

namespace Sys2Proof.Machine

variable {f : Fontset}

/-! ### Reads after writes -/

theorem Memory.read_erase (m : Mem) (a b : Nat) :
    Memory.read f (Memory.erase m a) b = if b = a then Memory.blank f b else Memory.read f m b := by
  induction m with
  | nil => simp [Memory.erase, Memory.read]
  | cons c m ih =>
    obtain ⟨k, w⟩ := c
    by_cases hk : k = a <;> by_cases hb : b = a <;> simp_all [Memory.erase, Memory.read]
    intro h; omega

theorem Memory.read_insert (m : Mem) (a b : Nat) (v : Byte) (ha : ∀ w, (a, w) ∉ m) :
    Memory.read f (Memory.insert m a v) b = if b = a then v else Memory.read f m b := by
  induction m with
  | nil => simp [Memory.insert, Memory.read, eq_comm]
  | cons c m ih =>
    obtain ⟨k, w⟩ := c
    have hk : k ≠ a := fun h => ha w (by simp [h])
    have ih := ih fun u hu => ha u (List.mem_cons_of_mem _ hu)
    unfold Memory.insert
    split
    · simp only [Memory.read, eq_comm (a := a)]
    · simp only [Memory.read, ih]
      split <;> split <;> simp_all

theorem Memory.not_mem_erase (m : Mem) (a : Nat) (w : Byte) : (a, w) ∉ Memory.erase m a := by
  induction m with
  | nil => simp [Memory.erase]
  | cons c m ih =>
    unfold Memory.erase
    split
    · exact ih
    · rintro (_ | ⟨_, h⟩)
      · simp_all
      · exact ih h

/-- What a write does to every byte, whatever the cell list. -/
theorem Memory.read_write (m : Mem) (a b : Nat) (v : Byte) :
    Memory.read f (Memory.write f m a v) b = if b = a then v else Memory.read f m b := by
  unfold Memory.write
  split
  · rw [Memory.read_erase]; split <;> simp_all
  · rw [Memory.read_insert _ _ _ _ (Memory.not_mem_erase m a), Memory.read_erase]; split <;> simp_all

@[simp] theorem Memory.read_write_self (m : Mem) (a : Nat) (v : Byte) :
    Memory.read f (Memory.write f m a v) a = v := by simp [Memory.read_write]

theorem Memory.read_write_ne (m : Mem) (a b : Nat) (v : Byte) (h : b ≠ a) :
    Memory.read f (Memory.write f m a v) b = Memory.read f m b := by simp [Memory.read_write, h]

/-- What a range write does to every byte. -/
theorem Memory.read_writeRange (m : Mem) (a b : Nat) (bs : List Byte) :
    Memory.read f (Memory.writeRange f m a bs) b =
      if h : a ≤ b ∧ b - a < bs.length then bs[b - a]'h.2 else Memory.read f m b := by
  induction bs generalizing a with
  | nil => simp [Memory.writeRange]
  | cons c bs ih =>
    rw [Memory.writeRange, Memory.read_write, ih]
    by_cases hb : b = a
    · subst hb; simp
    · by_cases h : a + 1 ≤ b ∧ b - (a + 1) < bs.length
      · have h' : a ≤ b ∧ b - a < (c :: bs).length := by simp only [List.length_cons]; omega
        have e : b - a = b - (a + 1) + 1 := by omega
        rw [if_neg hb, dif_pos h, dif_pos h']
        simp only [e, List.getElem_cons_succ]
      · have h' : ¬(a ≤ b ∧ b - a < (c :: bs).length) := by simp only [List.length_cons]; omega
        rw [if_neg hb, dif_neg h, dif_neg h']

@[simp] theorem Memory.length_readRange (m : Mem) (a n : Nat) : (Memory.readRange f m a n).length = n := by
  induction n generalizing a with
  | zero => rfl
  | succ n ih => simp [Memory.readRange, ih]

@[simp] theorem Memory.getElem_readRange (m : Mem) (a n k : Nat) (h : k < (Memory.readRange f m a n).length) :
    (Memory.readRange f m a n)[k] = Memory.read f m (a + k) := by
  induction n generalizing a k with
  | zero => simp [Memory.readRange] at h
  | succ n ih =>
    cases k with
    | zero => simp [Memory.readRange]
    | succ k =>
      simp only [Memory.readRange, List.getElem_cons_succ, ih]
      congr 1; omega

/-! ### The canonical form -/

theorem Memory.wfFrom_mono (m : Mem) (lo lo' : Nat) (h : lo' ≤ lo) (hm : Memory.wfFrom f lo m = true) :
    Memory.wfFrom f lo' m = true := by
  cases m with
  | nil => rfl
  | cons c m => simp [Memory.wfFrom] at hm ⊢; exact ⟨⟨⟨by omega, hm.1.1.2⟩, hm.1.2⟩, hm.2⟩

theorem Memory.wfFrom_erase (m : Mem) (lo a : Nat) (hm : Memory.wfFrom f lo m = true) :
    Memory.wfFrom f lo (Memory.erase m a) = true := by
  induction m generalizing lo with
  | nil => rfl
  | cons c m ih =>
    obtain ⟨k, w⟩ := c
    simp only [Memory.wfFrom, Bool.and_eq_true, decide_eq_true_eq] at hm
    unfold Memory.erase
    split
    · exact ih _ (Memory.wfFrom_mono m _ _ (by omega) hm.2)
    · simp only [Memory.wfFrom, Bool.and_eq_true, decide_eq_true_eq]
      exact ⟨hm.1, ih _ hm.2⟩

theorem Memory.wfFrom_insert (m : Mem) (lo a : Nat) (v : Byte) (hlo : lo ≤ a) (ha : a < 0x1000)
    (hv : v ≠ Memory.blank f a) (hn : ∀ w, (a, w) ∉ m) (hm : Memory.wfFrom f lo m = true) :
    Memory.wfFrom f lo (Memory.insert m a v) = true := by
  induction m generalizing lo with
  | nil => simp_all [Memory.insert, Memory.wfFrom]
  | cons c m ih =>
    obtain ⟨k, w⟩ := c
    have hk : k ≠ a := fun h => hn w (by simp [h])
    simp only [Memory.wfFrom, Bool.and_eq_true, decide_eq_true_eq] at hm
    unfold Memory.insert
    split
    · simp only [Memory.wfFrom, Bool.and_eq_true, decide_eq_true_eq]
      exact ⟨⟨⟨hlo, ha⟩, hv⟩, ⟨⟨by omega, hm.1.1.2⟩, hm.1.2⟩, hm.2⟩
    · simp only [Memory.wfFrom, Bool.and_eq_true, decide_eq_true_eq]
      exact ⟨hm.1, ih _ (by omega) (fun u hu => hn u (List.mem_cons_of_mem _ hu)) hm.2⟩

/-- A write inside the address space keeps the canonical form. -/
theorem Memory.wf_write (m : Mem) (a : Nat) (v : Byte) (ha : a < 0x1000) (hm : Memory.wf f m = true) :
    Memory.wf f (Memory.write f m a v) = true := by
  unfold Memory.write
  split
  · exact Memory.wfFrom_erase m 0 a hm
  · rename_i hv
    exact Memory.wfFrom_insert _ 0 a v (Nat.zero_le a) ha hv (Memory.not_mem_erase m a) (Memory.wfFrom_erase m 0 a hm)

/-- A range write inside the address space keeps the canonical form. -/
theorem Memory.wf_writeRange (m : Mem) (a : Nat) (bs : List Byte) (ha : a + bs.length ≤ 0x1000)
    (hm : Memory.wf f m = true) : Memory.wf f (Memory.writeRange f m a bs) = true := by
  induction bs generalizing a with
  | nil => exact hm
  | cons c bs ih =>
    simp only [List.length_cons] at ha
    exact Memory.wf_write _ _ _ (by omega) (ih (a + 1) (by omega))

/-- Reset memory, which lists nothing, has the canonical form. -/
theorem Memory.wf_nil : Memory.wf f [] = true := rfl

theorem Memory.inRange_iff (a n : Nat) : Memory.inRange a n = true ↔ n = 0 ∨ a + n - 1 ≤ 0xFFF := by
  simp [Memory.inRange]

end Sys2Proof.Machine
end

