-- ==== Sys2Proof/Laws/State.lean ====
section
/-! SUPPORT. What each update of the state does to each field: one lemma per field and update, true by `rfl`. -/

namespace Sys2Proof.Machine

variable (s : State)

/-! ### `setV` -/

@[simp] theorem State.setV_v (x : RegIx) (b : Byte) : (s.setV x b).v = s.v.set x.toNat b x.isLt := rfl
@[simp] theorem State.setV_i (x : RegIx) (b : Byte) : (s.setV x b).i = s.i := rfl
@[simp] theorem State.setV_pc (x : RegIx) (b : Byte) : (s.setV x b).pc = s.pc := rfl
@[simp] theorem State.setV_sp (x : RegIx) (b : Byte) : (s.setV x b).sp = s.sp := rfl
@[simp] theorem State.setV_stack (x : RegIx) (b : Byte) : (s.setV x b).stack = s.stack := rfl
@[simp] theorem State.setV_dt (x : RegIx) (b : Byte) : (s.setV x b).dt = s.dt := rfl
@[simp] theorem State.setV_st (x : RegIx) (b : Byte) : (s.setV x b).st = s.st := rfl
@[simp] theorem State.setV_mem (x : RegIx) (b : Byte) : (s.setV x b).mem = s.mem := rfl
@[simp] theorem State.setV_wait (x : RegIx) (b : Byte) : (s.setV x b).wait = s.wait := rfl
@[simp] theorem State.setV_waitReg (x : RegIx) (b : Byte) : (s.setV x b).waitReg = s.waitReg := rfl
@[simp] theorem State.setV_halt (x : RegIx) (b : Byte) : (s.setV x b).halt = s.halt := rfl
@[simp] theorem State.setV_err (x : RegIx) (b : Byte) : (s.setV x b).err = s.err := rfl
@[simp] theorem State.setV_key (x : RegIx) (b : Byte) : (s.setV x b).key = s.key := rfl
@[simp] theorem State.setV_rnd (x : RegIx) (b : Byte) : (s.setV x b).rnd = s.rnd := rfl
@[simp] theorem State.setV_fb (x : RegIx) (b : Byte) : (s.setV x b).fb = s.fb := rfl
@[simp] theorem State.setV_tone (x : RegIx) (b : Byte) : (s.setV x b).tone = s.tone := rfl
@[simp] theorem State.setV_fontset (x : RegIx) (b : Byte) : (s.setV x b).fontset = s.fontset := rfl
@[simp] theorem State.setV_schedule (x : RegIx) (b : Byte) : (s.setV x b).schedule = s.schedule := rfl
@[simp] theorem State.setV_draws (x : RegIx) (b : Byte) : (s.setV x b).draws = s.draws := rfl
@[simp] theorem State.setV_readByte (x : RegIx) (b : Byte) (a : Nat) : (s.setV x b).readByte a = s.readByte a := rfl
@[simp] theorem State.setV_memoryWf (x : RegIx) (b : Byte) : (s.setV x b).memoryWf = s.memoryWf := rfl

/-! ### `setI` -/

@[simp] theorem State.setI_v (w : Word) : (s.setI w).v = s.v := rfl
@[simp] theorem State.setI_i (w : Word) : (s.setI w).i = w := rfl
@[simp] theorem State.setI_pc (w : Word) : (s.setI w).pc = s.pc := rfl
@[simp] theorem State.setI_sp (w : Word) : (s.setI w).sp = s.sp := rfl
@[simp] theorem State.setI_stack (w : Word) : (s.setI w).stack = s.stack := rfl
@[simp] theorem State.setI_dt (w : Word) : (s.setI w).dt = s.dt := rfl
@[simp] theorem State.setI_st (w : Word) : (s.setI w).st = s.st := rfl
@[simp] theorem State.setI_mem (w : Word) : (s.setI w).mem = s.mem := rfl
@[simp] theorem State.setI_wait (w : Word) : (s.setI w).wait = s.wait := rfl
@[simp] theorem State.setI_waitReg (w : Word) : (s.setI w).waitReg = s.waitReg := rfl
@[simp] theorem State.setI_halt (w : Word) : (s.setI w).halt = s.halt := rfl
@[simp] theorem State.setI_err (w : Word) : (s.setI w).err = s.err := rfl
@[simp] theorem State.setI_key (w : Word) : (s.setI w).key = s.key := rfl
@[simp] theorem State.setI_rnd (w : Word) : (s.setI w).rnd = s.rnd := rfl
@[simp] theorem State.setI_fb (w : Word) : (s.setI w).fb = s.fb := rfl
@[simp] theorem State.setI_tone (w : Word) : (s.setI w).tone = s.tone := rfl
@[simp] theorem State.setI_fontset (w : Word) : (s.setI w).fontset = s.fontset := rfl
@[simp] theorem State.setI_schedule (w : Word) : (s.setI w).schedule = s.schedule := rfl
@[simp] theorem State.setI_draws (w : Word) : (s.setI w).draws = s.draws := rfl
@[simp] theorem State.setI_readByte (w : Word) (a : Nat) : (s.setI w).readByte a = s.readByte a := rfl
@[simp] theorem State.setI_memoryWf (w : Word) : (s.setI w).memoryWf = s.memoryWf := rfl
@[simp] theorem State.setI_readV (w : Word) (r : RegIx) : (s.setI w).readV r = s.readV r := rfl

/-! ### `setPc` -/

@[simp] theorem State.setPc_v (w : Word) : (s.setPc w).v = s.v := rfl
@[simp] theorem State.setPc_i (w : Word) : (s.setPc w).i = s.i := rfl
@[simp] theorem State.setPc_pc (w : Word) : (s.setPc w).pc = w := rfl
@[simp] theorem State.setPc_sp (w : Word) : (s.setPc w).sp = s.sp := rfl
@[simp] theorem State.setPc_stack (w : Word) : (s.setPc w).stack = s.stack := rfl
@[simp] theorem State.setPc_dt (w : Word) : (s.setPc w).dt = s.dt := rfl
@[simp] theorem State.setPc_st (w : Word) : (s.setPc w).st = s.st := rfl
@[simp] theorem State.setPc_mem (w : Word) : (s.setPc w).mem = s.mem := rfl
@[simp] theorem State.setPc_wait (w : Word) : (s.setPc w).wait = s.wait := rfl
@[simp] theorem State.setPc_waitReg (w : Word) : (s.setPc w).waitReg = s.waitReg := rfl
@[simp] theorem State.setPc_halt (w : Word) : (s.setPc w).halt = s.halt := rfl
@[simp] theorem State.setPc_err (w : Word) : (s.setPc w).err = s.err := rfl
@[simp] theorem State.setPc_key (w : Word) : (s.setPc w).key = s.key := rfl
@[simp] theorem State.setPc_rnd (w : Word) : (s.setPc w).rnd = s.rnd := rfl
@[simp] theorem State.setPc_fb (w : Word) : (s.setPc w).fb = s.fb := rfl
@[simp] theorem State.setPc_tone (w : Word) : (s.setPc w).tone = s.tone := rfl
@[simp] theorem State.setPc_fontset (w : Word) : (s.setPc w).fontset = s.fontset := rfl
@[simp] theorem State.setPc_schedule (w : Word) : (s.setPc w).schedule = s.schedule := rfl
@[simp] theorem State.setPc_draws (w : Word) : (s.setPc w).draws = s.draws := rfl
@[simp] theorem State.setPc_readByte (w : Word) (a : Nat) : (s.setPc w).readByte a = s.readByte a := rfl
@[simp] theorem State.setPc_memoryWf (w : Word) : (s.setPc w).memoryWf = s.memoryWf := rfl
@[simp] theorem State.setPc_readV (w : Word) (r : RegIx) : (s.setPc w).readV r = s.readV r := rfl

/-! ### `setDt` -/

@[simp] theorem State.setDt_v (b : Byte) : (s.setDt b).v = s.v := rfl
@[simp] theorem State.setDt_i (b : Byte) : (s.setDt b).i = s.i := rfl
@[simp] theorem State.setDt_pc (b : Byte) : (s.setDt b).pc = s.pc := rfl
@[simp] theorem State.setDt_sp (b : Byte) : (s.setDt b).sp = s.sp := rfl
@[simp] theorem State.setDt_stack (b : Byte) : (s.setDt b).stack = s.stack := rfl
@[simp] theorem State.setDt_dt (b : Byte) : (s.setDt b).dt = b := rfl
@[simp] theorem State.setDt_st (b : Byte) : (s.setDt b).st = s.st := rfl
@[simp] theorem State.setDt_mem (b : Byte) : (s.setDt b).mem = s.mem := rfl
@[simp] theorem State.setDt_wait (b : Byte) : (s.setDt b).wait = s.wait := rfl
@[simp] theorem State.setDt_waitReg (b : Byte) : (s.setDt b).waitReg = s.waitReg := rfl
@[simp] theorem State.setDt_halt (b : Byte) : (s.setDt b).halt = s.halt := rfl
@[simp] theorem State.setDt_err (b : Byte) : (s.setDt b).err = s.err := rfl
@[simp] theorem State.setDt_key (b : Byte) : (s.setDt b).key = s.key := rfl
@[simp] theorem State.setDt_rnd (b : Byte) : (s.setDt b).rnd = s.rnd := rfl
@[simp] theorem State.setDt_fb (b : Byte) : (s.setDt b).fb = s.fb := rfl
@[simp] theorem State.setDt_tone (b : Byte) : (s.setDt b).tone = s.tone := rfl
@[simp] theorem State.setDt_fontset (b : Byte) : (s.setDt b).fontset = s.fontset := rfl
@[simp] theorem State.setDt_schedule (b : Byte) : (s.setDt b).schedule = s.schedule := rfl
@[simp] theorem State.setDt_draws (b : Byte) : (s.setDt b).draws = s.draws := rfl
@[simp] theorem State.setDt_readByte (b : Byte) (a : Nat) : (s.setDt b).readByte a = s.readByte a := rfl
@[simp] theorem State.setDt_memoryWf (b : Byte) : (s.setDt b).memoryWf = s.memoryWf := rfl
@[simp] theorem State.setDt_readV (b : Byte) (r : RegIx) : (s.setDt b).readV r = s.readV r := rfl

/-! ### `setSt` -/

@[simp] theorem State.setSt_v (b : Byte) : (s.setSt b).v = s.v := rfl
@[simp] theorem State.setSt_i (b : Byte) : (s.setSt b).i = s.i := rfl
@[simp] theorem State.setSt_pc (b : Byte) : (s.setSt b).pc = s.pc := rfl
@[simp] theorem State.setSt_sp (b : Byte) : (s.setSt b).sp = s.sp := rfl
@[simp] theorem State.setSt_stack (b : Byte) : (s.setSt b).stack = s.stack := rfl
@[simp] theorem State.setSt_dt (b : Byte) : (s.setSt b).dt = s.dt := rfl
@[simp] theorem State.setSt_st (b : Byte) : (s.setSt b).st = b := rfl
@[simp] theorem State.setSt_mem (b : Byte) : (s.setSt b).mem = s.mem := rfl
@[simp] theorem State.setSt_wait (b : Byte) : (s.setSt b).wait = s.wait := rfl
@[simp] theorem State.setSt_waitReg (b : Byte) : (s.setSt b).waitReg = s.waitReg := rfl
@[simp] theorem State.setSt_halt (b : Byte) : (s.setSt b).halt = s.halt := rfl
@[simp] theorem State.setSt_err (b : Byte) : (s.setSt b).err = s.err := rfl
@[simp] theorem State.setSt_key (b : Byte) : (s.setSt b).key = s.key := rfl
@[simp] theorem State.setSt_rnd (b : Byte) : (s.setSt b).rnd = s.rnd := rfl
@[simp] theorem State.setSt_fb (b : Byte) : (s.setSt b).fb = s.fb := rfl
@[simp] theorem State.setSt_tone (b : Byte) : (s.setSt b).tone = s.tone := rfl
@[simp] theorem State.setSt_fontset (b : Byte) : (s.setSt b).fontset = s.fontset := rfl
@[simp] theorem State.setSt_schedule (b : Byte) : (s.setSt b).schedule = s.schedule := rfl
@[simp] theorem State.setSt_draws (b : Byte) : (s.setSt b).draws = s.draws := rfl
@[simp] theorem State.setSt_readByte (b : Byte) (a : Nat) : (s.setSt b).readByte a = s.readByte a := rfl
@[simp] theorem State.setSt_memoryWf (b : Byte) : (s.setSt b).memoryWf = s.memoryWf := rfl
@[simp] theorem State.setSt_readV (b : Byte) (r : RegIx) : (s.setSt b).readV r = s.readV r := rfl

/-! ### `setMem` -/

@[simp] theorem State.setMem_v (m : Mem) : (s.setMem m).v = s.v := rfl
@[simp] theorem State.setMem_i (m : Mem) : (s.setMem m).i = s.i := rfl
@[simp] theorem State.setMem_pc (m : Mem) : (s.setMem m).pc = s.pc := rfl
@[simp] theorem State.setMem_sp (m : Mem) : (s.setMem m).sp = s.sp := rfl
@[simp] theorem State.setMem_stack (m : Mem) : (s.setMem m).stack = s.stack := rfl
@[simp] theorem State.setMem_dt (m : Mem) : (s.setMem m).dt = s.dt := rfl
@[simp] theorem State.setMem_st (m : Mem) : (s.setMem m).st = s.st := rfl
@[simp] theorem State.setMem_mem (m : Mem) : (s.setMem m).mem = m := rfl
@[simp] theorem State.setMem_wait (m : Mem) : (s.setMem m).wait = s.wait := rfl
@[simp] theorem State.setMem_waitReg (m : Mem) : (s.setMem m).waitReg = s.waitReg := rfl
@[simp] theorem State.setMem_halt (m : Mem) : (s.setMem m).halt = s.halt := rfl
@[simp] theorem State.setMem_err (m : Mem) : (s.setMem m).err = s.err := rfl
@[simp] theorem State.setMem_key (m : Mem) : (s.setMem m).key = s.key := rfl
@[simp] theorem State.setMem_rnd (m : Mem) : (s.setMem m).rnd = s.rnd := rfl
@[simp] theorem State.setMem_fb (m : Mem) : (s.setMem m).fb = s.fb := rfl
@[simp] theorem State.setMem_tone (m : Mem) : (s.setMem m).tone = s.tone := rfl
@[simp] theorem State.setMem_fontset (m : Mem) : (s.setMem m).fontset = s.fontset := rfl
@[simp] theorem State.setMem_schedule (m : Mem) : (s.setMem m).schedule = s.schedule := rfl
@[simp] theorem State.setMem_draws (m : Mem) : (s.setMem m).draws = s.draws := rfl
@[simp] theorem State.setMem_readV (m : Mem) (r : RegIx) : (s.setMem m).readV r = s.readV r := rfl

/-! ### `writeBlock` -/

@[simp] theorem State.writeBlock_v (n : Nat) (bs : List Byte) : (s.writeBlock n bs).v = s.v := rfl
@[simp] theorem State.writeBlock_i (n : Nat) (bs : List Byte) : (s.writeBlock n bs).i = s.i := rfl
@[simp] theorem State.writeBlock_pc (n : Nat) (bs : List Byte) : (s.writeBlock n bs).pc = s.pc := rfl
@[simp] theorem State.writeBlock_sp (n : Nat) (bs : List Byte) : (s.writeBlock n bs).sp = s.sp := rfl
@[simp] theorem State.writeBlock_stack (n : Nat) (bs : List Byte) : (s.writeBlock n bs).stack = s.stack := rfl
@[simp] theorem State.writeBlock_dt (n : Nat) (bs : List Byte) : (s.writeBlock n bs).dt = s.dt := rfl
@[simp] theorem State.writeBlock_st (n : Nat) (bs : List Byte) : (s.writeBlock n bs).st = s.st := rfl
@[simp] theorem State.writeBlock_wait (n : Nat) (bs : List Byte) : (s.writeBlock n bs).wait = s.wait := rfl
@[simp] theorem State.writeBlock_waitReg (n : Nat) (bs : List Byte) : (s.writeBlock n bs).waitReg = s.waitReg := rfl
@[simp] theorem State.writeBlock_halt (n : Nat) (bs : List Byte) : (s.writeBlock n bs).halt = s.halt := rfl
@[simp] theorem State.writeBlock_err (n : Nat) (bs : List Byte) : (s.writeBlock n bs).err = s.err := rfl
@[simp] theorem State.writeBlock_key (n : Nat) (bs : List Byte) : (s.writeBlock n bs).key = s.key := rfl
@[simp] theorem State.writeBlock_rnd (n : Nat) (bs : List Byte) : (s.writeBlock n bs).rnd = s.rnd := rfl
@[simp] theorem State.writeBlock_fb (n : Nat) (bs : List Byte) : (s.writeBlock n bs).fb = s.fb := rfl
@[simp] theorem State.writeBlock_tone (n : Nat) (bs : List Byte) : (s.writeBlock n bs).tone = s.tone := rfl
@[simp] theorem State.writeBlock_fontset (n : Nat) (bs : List Byte) : (s.writeBlock n bs).fontset = s.fontset := rfl
@[simp] theorem State.writeBlock_schedule (n : Nat) (bs : List Byte) : (s.writeBlock n bs).schedule = s.schedule := rfl
@[simp] theorem State.writeBlock_draws (n : Nat) (bs : List Byte) : (s.writeBlock n bs).draws = s.draws := rfl
@[simp] theorem State.writeBlock_readV (n : Nat) (bs : List Byte) (r : RegIx) : (s.writeBlock n bs).readV r = s.readV r := rfl

/-! ### `setFb` -/

@[simp] theorem State.setFb_v (p : Framebuffer) : (s.setFb p).v = s.v := rfl
@[simp] theorem State.setFb_i (p : Framebuffer) : (s.setFb p).i = s.i := rfl
@[simp] theorem State.setFb_pc (p : Framebuffer) : (s.setFb p).pc = s.pc := rfl
@[simp] theorem State.setFb_sp (p : Framebuffer) : (s.setFb p).sp = s.sp := rfl
@[simp] theorem State.setFb_stack (p : Framebuffer) : (s.setFb p).stack = s.stack := rfl
@[simp] theorem State.setFb_dt (p : Framebuffer) : (s.setFb p).dt = s.dt := rfl
@[simp] theorem State.setFb_st (p : Framebuffer) : (s.setFb p).st = s.st := rfl
@[simp] theorem State.setFb_mem (p : Framebuffer) : (s.setFb p).mem = s.mem := rfl
@[simp] theorem State.setFb_wait (p : Framebuffer) : (s.setFb p).wait = s.wait := rfl
@[simp] theorem State.setFb_waitReg (p : Framebuffer) : (s.setFb p).waitReg = s.waitReg := rfl
@[simp] theorem State.setFb_halt (p : Framebuffer) : (s.setFb p).halt = s.halt := rfl
@[simp] theorem State.setFb_err (p : Framebuffer) : (s.setFb p).err = s.err := rfl
@[simp] theorem State.setFb_key (p : Framebuffer) : (s.setFb p).key = s.key := rfl
@[simp] theorem State.setFb_rnd (p : Framebuffer) : (s.setFb p).rnd = s.rnd := rfl
@[simp] theorem State.setFb_fb (p : Framebuffer) : (s.setFb p).fb = p := rfl
@[simp] theorem State.setFb_tone (p : Framebuffer) : (s.setFb p).tone = s.tone := rfl
@[simp] theorem State.setFb_fontset (p : Framebuffer) : (s.setFb p).fontset = s.fontset := rfl
@[simp] theorem State.setFb_schedule (p : Framebuffer) : (s.setFb p).schedule = s.schedule := rfl
@[simp] theorem State.setFb_draws (p : Framebuffer) : (s.setFb p).draws = s.draws := rfl
@[simp] theorem State.setFb_readByte (p : Framebuffer) (a : Nat) : (s.setFb p).readByte a = s.readByte a := rfl
@[simp] theorem State.setFb_memoryWf (p : Framebuffer) : (s.setFb p).memoryWf = s.memoryWf := rfl
@[simp] theorem State.setFb_readV (p : Framebuffer) (r : RegIx) : (s.setFb p).readV r = s.readV r := rfl

/-! ### `enterWait` -/

@[simp] theorem State.enterWait_v (x : RegIx) : (s.enterWait x).v = s.v := rfl
@[simp] theorem State.enterWait_i (x : RegIx) : (s.enterWait x).i = s.i := rfl
@[simp] theorem State.enterWait_pc (x : RegIx) : (s.enterWait x).pc = s.pc := rfl
@[simp] theorem State.enterWait_sp (x : RegIx) : (s.enterWait x).sp = s.sp := rfl
@[simp] theorem State.enterWait_stack (x : RegIx) : (s.enterWait x).stack = s.stack := rfl
@[simp] theorem State.enterWait_dt (x : RegIx) : (s.enterWait x).dt = s.dt := rfl
@[simp] theorem State.enterWait_st (x : RegIx) : (s.enterWait x).st = s.st := rfl
@[simp] theorem State.enterWait_mem (x : RegIx) : (s.enterWait x).mem = s.mem := rfl
@[simp] theorem State.enterWait_wait (x : RegIx) : (s.enterWait x).wait = true := rfl
@[simp] theorem State.enterWait_waitReg (x : RegIx) : (s.enterWait x).waitReg = x := rfl
@[simp] theorem State.enterWait_halt (x : RegIx) : (s.enterWait x).halt = s.halt := rfl
@[simp] theorem State.enterWait_err (x : RegIx) : (s.enterWait x).err = s.err := rfl
@[simp] theorem State.enterWait_key (x : RegIx) : (s.enterWait x).key = s.key := rfl
@[simp] theorem State.enterWait_rnd (x : RegIx) : (s.enterWait x).rnd = s.rnd := rfl
@[simp] theorem State.enterWait_fb (x : RegIx) : (s.enterWait x).fb = s.fb := rfl
@[simp] theorem State.enterWait_tone (x : RegIx) : (s.enterWait x).tone = s.tone := rfl
@[simp] theorem State.enterWait_fontset (x : RegIx) : (s.enterWait x).fontset = s.fontset := rfl
@[simp] theorem State.enterWait_schedule (x : RegIx) : (s.enterWait x).schedule = s.schedule := rfl
@[simp] theorem State.enterWait_draws (x : RegIx) : (s.enterWait x).draws = s.draws := rfl
@[simp] theorem State.enterWait_readByte (x : RegIx) (a : Nat) : (s.enterWait x).readByte a = s.readByte a := rfl
@[simp] theorem State.enterWait_memoryWf (x : RegIx) : (s.enterWait x).memoryWf = s.memoryWf := rfl
@[simp] theorem State.enterWait_readV (x : RegIx) (r : RegIx) : (s.enterWait x).readV r = s.readV r := rfl

/-! ### `leaveWait` -/

@[simp] theorem State.leaveWait_v : s.leaveWait.v = s.v := rfl
@[simp] theorem State.leaveWait_i : s.leaveWait.i = s.i := rfl
@[simp] theorem State.leaveWait_pc : s.leaveWait.pc = s.pc := rfl
@[simp] theorem State.leaveWait_sp : s.leaveWait.sp = s.sp := rfl
@[simp] theorem State.leaveWait_stack : s.leaveWait.stack = s.stack := rfl
@[simp] theorem State.leaveWait_dt : s.leaveWait.dt = s.dt := rfl
@[simp] theorem State.leaveWait_st : s.leaveWait.st = s.st := rfl
@[simp] theorem State.leaveWait_mem : s.leaveWait.mem = s.mem := rfl
@[simp] theorem State.leaveWait_wait : s.leaveWait.wait = false := rfl
@[simp] theorem State.leaveWait_waitReg : s.leaveWait.waitReg = s.waitReg := rfl
@[simp] theorem State.leaveWait_halt : s.leaveWait.halt = s.halt := rfl
@[simp] theorem State.leaveWait_err : s.leaveWait.err = s.err := rfl
@[simp] theorem State.leaveWait_key : s.leaveWait.key = s.key := rfl
@[simp] theorem State.leaveWait_rnd : s.leaveWait.rnd = s.rnd := rfl
@[simp] theorem State.leaveWait_fb : s.leaveWait.fb = s.fb := rfl
@[simp] theorem State.leaveWait_tone : s.leaveWait.tone = s.tone := rfl
@[simp] theorem State.leaveWait_fontset : s.leaveWait.fontset = s.fontset := rfl
@[simp] theorem State.leaveWait_schedule : s.leaveWait.schedule = s.schedule := rfl
@[simp] theorem State.leaveWait_draws : s.leaveWait.draws = s.draws := rfl
@[simp] theorem State.leaveWait_readByte (a : Nat) : s.leaveWait.readByte a = s.readByte a := rfl
@[simp] theorem State.leaveWait_memoryWf : s.leaveWait.memoryWf = s.memoryWf := rfl
@[simp] theorem State.leaveWait_readV (r : RegIx) : s.leaveWait.readV r = s.readV r := rfl

/-! ### `present` -/

@[simp] theorem State.present_v (k : Keys) (b : Byte) : (s.present k b).v = s.v := rfl
@[simp] theorem State.present_i (k : Keys) (b : Byte) : (s.present k b).i = s.i := rfl
@[simp] theorem State.present_pc (k : Keys) (b : Byte) : (s.present k b).pc = s.pc := rfl
@[simp] theorem State.present_sp (k : Keys) (b : Byte) : (s.present k b).sp = s.sp := rfl
@[simp] theorem State.present_stack (k : Keys) (b : Byte) : (s.present k b).stack = s.stack := rfl
@[simp] theorem State.present_dt (k : Keys) (b : Byte) : (s.present k b).dt = s.dt := rfl
@[simp] theorem State.present_st (k : Keys) (b : Byte) : (s.present k b).st = s.st := rfl
@[simp] theorem State.present_mem (k : Keys) (b : Byte) : (s.present k b).mem = s.mem := rfl
@[simp] theorem State.present_wait (k : Keys) (b : Byte) : (s.present k b).wait = s.wait := rfl
@[simp] theorem State.present_waitReg (k : Keys) (b : Byte) : (s.present k b).waitReg = s.waitReg := rfl
@[simp] theorem State.present_halt (k : Keys) (b : Byte) : (s.present k b).halt = s.halt := rfl
@[simp] theorem State.present_err (k : Keys) (b : Byte) : (s.present k b).err = s.err := rfl
@[simp] theorem State.present_key (k : Keys) (b : Byte) : (s.present k b).key = k := rfl
@[simp] theorem State.present_rnd (k : Keys) (b : Byte) : (s.present k b).rnd = b := rfl
@[simp] theorem State.present_fb (k : Keys) (b : Byte) : (s.present k b).fb = s.fb := rfl
@[simp] theorem State.present_tone (k : Keys) (b : Byte) : (s.present k b).tone = false := rfl
@[simp] theorem State.present_fontset (k : Keys) (b : Byte) : (s.present k b).fontset = s.fontset := rfl
@[simp] theorem State.present_schedule (k : Keys) (b : Byte) : (s.present k b).schedule = s.schedule := rfl
@[simp] theorem State.present_draws (k : Keys) (b : Byte) : (s.present k b).draws = s.draws := rfl
@[simp] theorem State.present_readByte (k : Keys) (b : Byte) (a : Nat) : (s.present k b).readByte a = s.readByte a := rfl
@[simp] theorem State.present_memoryWf (k : Keys) (b : Byte) : (s.present k b).memoryWf = s.memoryWf := rfl
@[simp] theorem State.present_readV (k : Keys) (b : Byte) (r : RegIx) : (s.present k b).readV r = s.readV r := rfl

/-! ### `raiseFault` -/

@[simp] theorem State.raiseFault_v (c : ErrCode) (w : Word) (n : Nat) : (s.raiseFault c w n).v = s.v := rfl
@[simp] theorem State.raiseFault_i (c : ErrCode) (w : Word) (n : Nat) : (s.raiseFault c w n).i = s.i := rfl
@[simp] theorem State.raiseFault_pc (c : ErrCode) (w : Word) (n : Nat) : (s.raiseFault c w n).pc = s.pc := rfl
@[simp] theorem State.raiseFault_sp (c : ErrCode) (w : Word) (n : Nat) : (s.raiseFault c w n).sp = s.sp := rfl
@[simp] theorem State.raiseFault_stack (c : ErrCode) (w : Word) (n : Nat) : (s.raiseFault c w n).stack = s.stack := rfl
@[simp] theorem State.raiseFault_dt (c : ErrCode) (w : Word) (n : Nat) : (s.raiseFault c w n).dt = s.dt := rfl
@[simp] theorem State.raiseFault_st (c : ErrCode) (w : Word) (n : Nat) : (s.raiseFault c w n).st = s.st := rfl
@[simp] theorem State.raiseFault_mem (c : ErrCode) (w : Word) (n : Nat) : (s.raiseFault c w n).mem = s.mem := rfl
@[simp] theorem State.raiseFault_wait (c : ErrCode) (w : Word) (n : Nat) : (s.raiseFault c w n).wait = s.wait := rfl
@[simp] theorem State.raiseFault_waitReg (c : ErrCode) (w : Word) (n : Nat) : (s.raiseFault c w n).waitReg = s.waitReg := rfl
@[simp] theorem State.raiseFault_halt (c : ErrCode) (w : Word) (n : Nat) : (s.raiseFault c w n).halt = true := rfl
@[simp] theorem State.raiseFault_err (c : ErrCode) (w : Word) (n : Nat) : (s.raiseFault c w n).err = ⟨c, s.pc, w, BitVec.ofNat 16 n⟩ := rfl
@[simp] theorem State.raiseFault_key (c : ErrCode) (w : Word) (n : Nat) : (s.raiseFault c w n).key = s.key := rfl
@[simp] theorem State.raiseFault_rnd (c : ErrCode) (w : Word) (n : Nat) : (s.raiseFault c w n).rnd = s.rnd := rfl
@[simp] theorem State.raiseFault_fb (c : ErrCode) (w : Word) (n : Nat) : (s.raiseFault c w n).fb = s.fb := rfl
@[simp] theorem State.raiseFault_tone (c : ErrCode) (w : Word) (n : Nat) : (s.raiseFault c w n).tone = s.tone := rfl
@[simp] theorem State.raiseFault_fontset (c : ErrCode) (w : Word) (n : Nat) : (s.raiseFault c w n).fontset = s.fontset := rfl
@[simp] theorem State.raiseFault_schedule (c : ErrCode) (w : Word) (n : Nat) : (s.raiseFault c w n).schedule = s.schedule := rfl
@[simp] theorem State.raiseFault_draws (c : ErrCode) (w : Word) (n : Nat) : (s.raiseFault c w n).draws = s.draws := rfl
@[simp] theorem State.raiseFault_readByte (c : ErrCode) (w : Word) (n : Nat) (a : Nat) : (s.raiseFault c w n).readByte a = s.readByte a := rfl
@[simp] theorem State.raiseFault_memoryWf (c : ErrCode) (w : Word) (n : Nat) : (s.raiseFault c w n).memoryWf = s.memoryWf := rfl
@[simp] theorem State.raiseFault_readV (c : ErrCode) (w : Word) (n : Nat) (r : RegIx) : (s.raiseFault c w n).readV r = s.readV r := rfl

/-! ### Registers as they read -/

theorem State.readV_setV (x r : RegIx) (b : Byte) : (s.setV x b).readV r = if r = x then b else s.readV r := by
  simp only [State.readV, State.setV, Vector.getElem_set, BitVec.toNat_inj, eq_comm (a := x)]

@[simp] theorem State.readV_setV_self (x : RegIx) (b : Byte) : (s.setV x b).readV x = b := by
  simp [State.readV_setV]

theorem State.readV_setV_ne (x r : RegIx) (b : Byte) (h : r ≠ x) : (s.setV x b).readV r = s.readV r := by
  simp [State.readV_setV, h]

end Sys2Proof.Machine
end

