-- ==== Sys2Proof/Laws/Ops.lean ====
section
/-! SUPPORT. What each shared operation does, said once: blocks, skips, flags, the call stack, register ranges, pixels,
keys and timers. -/

namespace Sys2Proof.Machine

variable (s : State)

/-! ### Blocks and faults -/

theorem State.withBlock_inRange (n : Nat) (w : Word) (k : State) (h : n = 0 ∨ s.i.toNat + n - 1 ≤ 0xFFF) :
    s.withBlock n w k = k := by
  simp [State.withBlock, (Memory.inRange_iff _ _).2 h]

theorem State.withBlock_outside (n : Nat) (w : Word) (k : State) (h : ¬(n = 0 ∨ s.i.toNat + n - 1 ≤ 0xFFF)) :
    s.withBlock n w k = s.raiseFault .addressRange w (Memory.firstOutside s.i.toNat) := by
  have : Memory.inRange s.i.toNat n = false := by
    rw [Bool.eq_false_iff, Ne, Memory.inRange_iff]; exact h
  simp [State.withBlock, this]

/-- A block operation runs its effect, the block being in range, or takes the fault. -/
theorem State.withBlock_cases (n : Nat) (w : Word) (k : State) :
    ((n = 0 ∨ s.i.toNat + n - 1 ≤ 0xFFF) ∧ s.withBlock n w k = k) ∨
    (¬(n = 0 ∨ s.i.toNat + n - 1 ≤ 0xFFF) ∧
      s.withBlock n w k = s.raiseFault .addressRange w (Memory.firstOutside s.i.toNat)) := by
  by_cases h : n = 0 ∨ s.i.toNat + n - 1 ≤ 0xFFF
  · exact .inl ⟨h, s.withBlock_inRange n w k h⟩
  · exact .inr ⟨h, s.withBlock_outside n w k h⟩

/-! ### Memory of the machine -/

/-- Memory reads the same in two states of one build with the same cells. -/
theorem State.readByte_congr {s t : State} (hm : t.mem = s.mem) (hf : t.fontset = s.fontset) (a : Nat) :
    t.readByte a = s.readByte a := by rw [State.readByte, State.readByte, hm, hf]

/-- What storing a block does to every byte. -/
theorem State.readByte_writeBlock (a b : Nat) (bs : List Byte) :
    (s.writeBlock a bs).readByte b = if h : a ≤ b ∧ b - a < bs.length then bs[b - a]'h.2 else s.readByte b :=
  Memory.read_writeRange s.mem a b bs

/-- Storing a block inside the address space keeps the canonical form. -/
theorem State.memoryWf_writeBlock (a : Nat) (bs : List Byte) (ha : a + bs.length ≤ 0x1000) (hs : s.memoryWf = true) :
    (s.writeBlock a bs).memoryWf = true := Memory.wf_writeRange s.mem a bs ha hs

@[simp] theorem State.length_readBlock (a n : Nat) : (s.readBlock a n).length = n := Memory.length_readRange s.mem a n

@[simp] theorem State.getElem_readBlock (a n k : Nat) (h : k < (s.readBlock a n).length) :
    (s.readBlock a n)[k] = s.readByte (a + k) := Memory.getElem_readRange s.mem a n k h

/-! ### Skips -/

theorem State.skipIf_eq (c : Bool) : s.skipIf c = s.setPc (if c then s.pc + 2 else s.pc) := by
  cases c <;> rfl

@[simp] theorem State.advance_eq : s.advance = s.setPc (s.pc + 2) := rfl

/-- A key skip takes the fault on an index above 15, else it skips or does not. -/
theorem State.keySkip_cases (k : Byte) (w : Word) (c : Bool) :
    (15 < k.toNat ∧ s.keySkip k w c = s.raiseFault .keyIndexRange w k.toNat) ∨
    (k.toNat ≤ 15 ∧ s.keySkip k w c = s.skipIf c) := by
  unfold State.keySkip
  split
  · exact .inl ⟨‹_›, rfl⟩
  · exact .inr ⟨by omega, rfl⟩

/-! ### Flags -/

theorem State.setFlag_eq (f : Bool) : s.setFlag f = s.setV VF (flagByte f) := rfl

/-- The flag is written last, so it wins where the destination is `VF` (R127). -/
theorem State.readV_setWithFlag (x r : RegIx) (b : Byte) (f : Bool) :
    (s.setWithFlag x b f).readV r = if r = VF then flagByte f else if r = x then b else s.readV r := by
  simp [State.setWithFlag, State.setFlag, State.readV_setV]

theorem carryOut_iff (a b : Byte) : carryOut a b = true ↔ 255 < a.toNat + b.toNat := by simp [carryOut]

theorem noBorrow_iff (a b : Byte) : noBorrow a b = true ↔ b.toNat ≤ a.toNat := by simp [noBorrow]

theorem indexOverflow_iff (n : Nat) : indexOverflow n = true ↔ 0xFFF < n := by simp [indexOverflow]

/-! ### The call stack -/

/-- A push with room: the entry `SP` holds the word, the others are kept, and `SP` is one more. -/
theorem State.push_eq (w : Word) (h : s.sp.toNat < 16) :
    s.push w = some { s with stack := s.stack.set s.sp.toNat w h, sp := s.sp + 1 } := by
  simp [State.push, h]

theorem State.push_none (w : Word) (h : 16 ≤ s.sp.toNat) : s.push w = none := by
  simp [State.push, Nat.not_lt.2 h]

/-- A pop of a stack with 1 to 16 entries. -/
theorem State.pop_eq (h0 : 0 < s.sp.toNat) (h : s.sp.toNat ≤ 16) :
    s.pop = some (s.stack[s.sp.toNat - 1]'(by omega), { s with sp := s.sp - 1 }) := by
  have e : (s.sp - 1).toNat = s.sp.toNat - 1 := by
    rw [BitVec.toNat_sub]; have := s.sp.isLt; simp; omega
  unfold State.pop
  simp only [e]
  rw [dif_pos (by omega)]

theorem State.pop_none (h : 16 < s.sp.toNat) : s.pop = none := by
  have e : (s.sp - 1).toNat = s.sp.toNat - 1 := by
    rw [BitVec.toNat_sub]; have := s.sp.isLt; simp; omega
  unfold State.pop
  simp only [e]
  rw [dif_neg (by omega)]

/-! ### Register ranges -/

theorem State.length_readVs (n : Nat) (h : n ≤ 16) : (s.readVs n).length = n := by
  simp [State.readVs]; omega

theorem State.getElem_readVs (n k : Nat) (h : k < (s.readVs n).length) (hk : k < 16) :
    (s.readVs n)[k] = s.v[k] := by
  simp [State.readVs]

/-- What writing a range of registers does to each register. -/
theorem State.readV_writeVs (k : Nat) (bs : List Byte) (r : RegIx) :
    (s.writeVs k bs).readV r = if h : k ≤ r.toNat ∧ r.toNat - k < bs.length then bs[r.toNat - k]'h.2 else s.readV r := by
  induction bs generalizing s k with
  | nil => simp [State.writeVs]
  | cons b bs ih =>
    rw [State.writeVs, ih]
    have hr := r.isLt
    by_cases hb : r.toNat = k
    · have : ¬(k + 1 ≤ r.toNat ∧ r.toNat - (k + 1) < bs.length) := by omega
      have h' : k ≤ r.toNat ∧ r.toNat - k < (b :: bs).length := by simp only [List.length_cons]; omega
      rw [dif_neg this, dif_pos h']
      subst hb
      simp [State.readV]
    · by_cases h : k + 1 ≤ r.toNat ∧ r.toNat - (k + 1) < bs.length
      · have h' : k ≤ r.toNat ∧ r.toNat - k < (b :: bs).length := by simp only [List.length_cons]; omega
        have e : r.toNat - k = r.toNat - (k + 1) + 1 := by omega
        rw [dif_pos h, dif_pos h']
        simp only [e, List.getElem_cons_succ]
      · have h' : ¬(k ≤ r.toNat ∧ r.toNat - k < (b :: bs).length) := by simp only [List.length_cons]; omega
        rw [dif_neg h, dif_neg h']
        simp only [State.readV]
        rw [Vector.getElem_setIfInBounds_ne]
        omega

/-- Writing a range of registers changes no other field. -/
theorem State.writeVs_eq (k : Nat) (bs : List Byte) : s.writeVs k bs = { s with v := (s.writeVs k bs).v } := by
  induction bs generalizing s k with
  | nil => rfl
  | cons b bs ih => rw [State.writeVs, ih]

/-! ### Pixels -/

/-- What setting a pixel does to every pixel. -/
theorem getPixel_setPixel (fb : Framebuffer) (px py qx qy : Nat) (b : Bool) :
    getPixel (setPixel fb px py b) qx qy = if px < 64 ∧ py < 32 ∧ qx = px ∧ qy = py then b else getPixel fb qx qy := by
  unfold setPixel
  by_cases hp : px < 64 ∧ py < 32
  · rw [dif_pos hp]
    by_cases hq : qx < 64 ∧ qy < 32
    · simp only [getPixel, hq, and_self, dite_true]
      by_cases hy : qy = py
      · subst hy
        by_cases hx : qx = px
        · subst hx; simp [hq]
        · simp [hx, Vector.getElem_set_ne _ _ (Ne.symm hx)]
      · simp [hy, Vector.getElem_set_ne _ _ (Ne.symm hy)]
    · have : ¬(px < 64 ∧ py < 32 ∧ qx = px ∧ qy = py) := by omega
      simp only [getPixel, hq, dite_false, this, if_false]
  · rw [dif_neg hp, if_neg (by omega)]

@[simp] theorem getPixel_off (px py : Nat) : getPixel Framebuffer.off px py = false := by
  simp [getPixel, Framebuffer.off]

/-- Framebuffers with the same pixels are equal. -/
theorem Framebuffer.ext_getPixel {a b : Framebuffer}
    (h : ∀ px py, px < 64 → py < 32 → getPixel a px py = getPixel b px py) : a = b := by
  apply Vector.ext; intro py hy
  apply Vector.ext; intro px hx
  simpa [getPixel, hx, hy] using h px py hx hy

/-! ### Keys -/

/-- The key the scan finds is held and is the lowest (R122). -/
theorem lowestKey_some (key : Keys) (k : Nat) (h : lowestKey key = some k) :
    k < 16 ∧ keyHeld key k = true ∧ ∀ j, j < k → keyHeld key j = false := by
  rw [lowestKey, List.find?_eq_some_iff_getElem] at h
  obtain ⟨hk, i, hi, rfl, hj⟩ := h
  simp only [List.getElem_range] at hk hj ⊢
  simp only [List.length_range] at hi
  exact ⟨hi, hk, fun j h => by simpa using hj j h⟩

theorem lowestKey_none (key : Keys) : lowestKey key = none ↔ key = 0 := by
  rw [lowestKey, List.find?_eq_none]
  constructor
  · intro h
    apply BitVec.eq_of_getLsbD_eq
    intro k hk
    simpa [keyHeld] using h k (List.mem_range.2 hk)
  · rintro rfl; simp [keyHeld]

/-- The key-wait scan changes nothing with no key held, else writes the lowest held key and ends the wait (R122). -/
theorem State.scanKeys_cases :
    (s.key = 0 ∧ s.scanKeys = s) ∨
    (∃ k, lowestKey s.key = some k ∧ s.scanKeys = (s.setV s.waitReg (BitVec.ofNat 8 k)).leaveWait) := by
  unfold State.scanKeys
  cases h : lowestKey s.key with
  | none => exact .inl ⟨(lowestKey_none _).1 h, rfl⟩
  | some k => exact .inr ⟨k, rfl, rfl⟩

/-! ### Timers -/

@[simp] theorem countDown_toNat (b : Byte) : (countDown b).toNat = b.toNat - 1 := by
  unfold countDown
  split
  · rw [BitVec.toNat_sub]; have := b.isLt; simp; omega
  · omega

end Sys2Proof.Machine
end

