-- ==== Sys2Proof/Laws/Display.lean ====
section
/-! SUPPORT. What drawing one sprite bit, and one sprite row, does to every pixel and to the collision flag. The closed
form of a whole sprite (R214) is a statement of its own. -/

namespace Sys2Proof.Machine

/-- One bit toggles its own pixel, if it is on the screen, and no other. -/
theorem getPixel_drawPixel (px py qx qy : Nat) (bit : Bool) (c : Canvas) (hx : qx < 64) (hy : qy < 32) :
    getPixel (drawPixel px py bit c).fb qx qy =
      (getPixel c.fb qx qy ^^ (bit && decide (qx = px) && decide (qy = py))) := by
  unfold drawPixel
  by_cases h : qx = px ∧ qy = py
  · obtain ⟨rfl, rfl⟩ := h
    have h1 : qx ≤ 63 := by omega
    have h2 : qy ≤ 31 := by omega
    cases bit <;> simp [h1, h2, getPixel_setPixel, hx, hy]
  · have hd : (decide (qx = px) && decide (qy = py)) = false := by simpa using h
    rw [Bool.and_assoc bit (decide (qx = px)), hd]
    split
    · simp only [getPixel_setPixel]; rw [if_neg (by omega)]; simp
    · simp

/-- One bit reports a collision if it is set, on the screen, and its pixel was lit. -/
theorem hit_drawPixel (px py : Nat) (bit : Bool) (c : Canvas) :
    (drawPixel px py bit c).hit =
      (c.hit || (bit && decide (px < 64) && decide (py < 32) && getPixel c.fb px py)) := by
  have h1 : (px ≤ 63) = (px < 64) := by simp; omega
  have h2 : (py ≤ 31) = (py < 32) := by simp; omega
  unfold drawPixel
  rw [show decide (px ≤ 63) = decide (px < 64) by simp [h1], show decide (py ≤ 31) = decide (py < 32) by simp [h2]]
  split
  · simp_all
  · rename_i h
    rw [Bool.not_eq_true] at h
    rw [h]; simp

/-- The leftmost `k` columns of a row toggle the pixels under their set bits and no other. -/
theorem getPixel_drawColumns (cx py : Nat) (row : Byte) (k : Nat) (c : Canvas) (qx qy : Nat) (hx : qx < 64)
    (hy : qy < 32) :
    getPixel (drawColumns cx py row k c).fb qx qy =
      (getPixel c.fb qx qy ^^
        (decide (cx ≤ qx) && decide (qx < cx + k) && decide (qy = py) && row.getLsbD (7 - (qx - cx)))) := by
  induction k with
  | zero =>
    have : (decide (cx ≤ qx) && decide (qx < cx + 0)) = false := by simp
    simp only [drawColumns, this, Bool.false_and, Bool.xor_false]
  | succ k ih =>
    rw [drawColumns, getPixel_drawPixel _ _ _ _ _ _ hx hy, ih, Bool.xor_assoc]
    congr 1
    by_cases h1 : qx = cx + k
    · subst h1; simp [Bool.and_comm]
    · have : (decide (qx < cx + (k + 1))) = decide (qx < cx + k) := by simp; omega
      simp [h1, this]

/-- The leftmost `k` columns of a row collide if some set bit of theirs is over a lit pixel. -/
theorem hit_drawColumns (cx py : Nat) (row : Byte) (k : Nat) (c : Canvas) :
    (drawColumns cx py row k c).hit = true ↔
      c.hit = true ∨ ∃ j, j < k ∧ row.getLsbD (7 - j) = true ∧ cx + j < 64 ∧ py < 32 ∧
        getPixel c.fb (cx + j) py = true := by
  induction k with
  | zero => simp [drawColumns]
  | succ k ih =>
    rw [drawColumns, hit_drawPixel, Bool.or_eq_true, ih]
    simp only [Bool.and_eq_true, decide_eq_true_eq]
    constructor
    · rintro ((h | ⟨j, hj, h⟩) | ⟨⟨⟨hb, h1⟩, h2⟩, hp⟩)
      · exact .inl h
      · exact .inr ⟨j, by omega, h⟩
      · rw [getPixel_drawColumns _ _ _ _ _ _ _ h1 h2] at hp
        exact .inr ⟨k, by omega, hb, h1, h2, by simpa using hp⟩
    · rintro (h | ⟨j, hj, hb, h1, h2, hp⟩)
      · exact .inl (.inl h)
      · by_cases e : j = k
        · subst e
          refine .inr ⟨⟨⟨hb, h1⟩, h2⟩, ?_⟩
          rw [getPixel_drawColumns _ _ _ _ _ _ _ h1 h2]
          simpa using hp
        · exact .inl (.inr ⟨j, by omega, hb, h1, h2, hp⟩)

end Sys2Proof.Machine
end

