-- ==== Sys2Proof/Laws/PerInstr.lean ====
section
/-! SUPPORT. Statements made per instruction. `EncodingRow`: the encoded word of an instruction is selected by the row of
the opcode map (R95) that stands for it. -/

namespace Sys2Proof

theorem nibble_and_ones (a : BitVec 4) : a &&& 0xF#4 = a := BitVec.and_allOnes

theorem byte_and_ones (b : Byte) : b &&& 0xFF#8 = b := BitVec.and_allOnes

theorem packXYN_and (op x y n op' x' y' n' : BitVec 4) :
    packXYN op x y n &&& packXYN op' x' y' n' = packXYN (op &&& op') (x &&& x') (y &&& y') (n &&& n') := by
  unfold packXYN; rw [BitVec.and_append, BitVec.and_append, BitVec.and_append]

theorem packXNN_and (op x op' x' : BitVec 4) (nn nn' : Byte) :
    packXNN op x nn &&& packXNN op' x' nn' = packXNN (op &&& op') (x &&& x') (nn &&& nn') := by
  unfold packXNN; rw [BitVec.and_append, BitVec.and_append]

theorem packNNN_and (op op' : BitVec 4) (nnn nnn' : Addr12) :
    packNNN op nnn &&& packNNN op' nnn' = packNNN (op &&& op') (nnn &&& nnn') := by
  unfold packNNN; rw [BitVec.and_append]

/-- A word of format NNN is selected by the row that fixes its first nibble. -/
theorem selects_packNNN (m : String) (op : Nibble) (nnn : Addr12) :
    OpcodeRow.selects ⟨m, packNNN 0xF 0x000, packNNN op 0x000⟩ (packNNN op nnn) = true := by
  simp [OpcodeRow.selects, packNNN_and, nibble_and_ones]

/-- A word of format XNN is selected by the row that fixes its first nibble. -/
theorem selects_packXNN (m : String) (op : Nibble) (x : RegIx) (nn : Byte) :
    OpcodeRow.selects ⟨m, packXNN 0xF 0x0 0x00, packXNN op 0x0 0x00⟩ (packXNN op x nn) = true := by
  simp [OpcodeRow.selects, packXNN_and, nibble_and_ones]

/-- A word of format XSS is selected by the row that fixes its first nibble and low byte. -/
theorem selects_packXSS (m : String) (op : Nibble) (x : RegIx) (nn : Byte) :
    OpcodeRow.selects ⟨m, packXNN 0xF 0x0 0xFF, packXNN op 0x0 nn⟩ (packXNN op x nn) = true := by
  simp [OpcodeRow.selects, packXNN_and, nibble_and_ones, byte_and_ones]

/-- A word of format XYS is selected by the row that fixes its first and last nibbles. -/
theorem selects_packXYS (m : String) (op : Nibble) (x y : RegIx) (n : Nibble) :
    OpcodeRow.selects ⟨m, packXYN 0xF 0x0 0x0 0xF, packXYN op 0x0 0x0 n⟩ (packXYN op x y n) = true := by
  simp [OpcodeRow.selects, packXYN_and, nibble_and_ones]

/-- A word of format XYN is selected by the row that fixes its first nibble. -/
theorem selects_packXYN (m : String) (op : Nibble) (x y : RegIx) (n : Nibble) :
    OpcodeRow.selects ⟨m, packXYN 0xF 0x0 0x0 0x0, packXYN op 0x0 0x0 0x0⟩ (packXYN op x y n) = true := by
  simp [OpcodeRow.selects, packXYN_and, nibble_and_ones]

end Sys2Proof

namespace Sys2Proof.Laws.EncodingRow

/-- The row of R95 that a constructor stands for. -/
def row : Instr → OpcodeRow
  | .cls => ⟨"CLS", 0xFFFF, 0x00E0⟩
  | .ret => ⟨"RET", 0xFFFF, 0x00EE⟩
  | .jp _ => ⟨"JP_nnn", 0xF000, 0x1000⟩
  | .call _ => ⟨"CALL_nnn", 0xF000, 0x2000⟩
  | .seImm _ _ => ⟨"SE_Vx__nn", 0xF000, 0x3000⟩
  | .sneImm _ _ => ⟨"SNE_Vx__nn", 0xF000, 0x4000⟩
  | .seReg _ _ => ⟨"SE_Vx__Vy", 0xF00F, 0x5000⟩
  | .ldImm _ _ => ⟨"LD_Vx__nn", 0xF000, 0x6000⟩
  | .addImm _ _ => ⟨"ADD_Vx__nn", 0xF000, 0x7000⟩
  | .ldReg _ _ => ⟨"LD_Vx__Vy", 0xF00F, 0x8000⟩
  | .orReg _ _ => ⟨"OR_Vx__Vy", 0xF00F, 0x8001⟩
  | .andReg _ _ => ⟨"AND_Vx__Vy", 0xF00F, 0x8002⟩
  | .xorReg _ _ => ⟨"XOR_Vx__Vy", 0xF00F, 0x8003⟩
  | .addReg _ _ => ⟨"ADD_Vx__Vy", 0xF00F, 0x8004⟩
  | .subReg _ _ => ⟨"SUB_Vx__Vy", 0xF00F, 0x8005⟩
  | .shr _ _ => ⟨"SHR_Vx", 0xF00F, 0x8006⟩
  | .subnReg _ _ => ⟨"SUBN_Vx__Vy", 0xF00F, 0x8007⟩
  | .shl _ _ => ⟨"SHL_Vx", 0xF00F, 0x800E⟩
  | .sneReg _ _ => ⟨"SNE_Vx__Vy", 0xF00F, 0x9000⟩
  | .ldI _ => ⟨"LD_I__nnn", 0xF000, 0xA000⟩
  | .jpV0 _ => ⟨"JP_V0__nnn", 0xF000, 0xB000⟩
  | .rnd _ _ => ⟨"RND_Vx__nn", 0xF000, 0xC000⟩
  | .drw _ _ _ => ⟨"DRW_Vx__Vy__n", 0xF000, 0xD000⟩
  | .skp _ => ⟨"SKP_Vx", 0xF0FF, 0xE09E⟩
  | .sknp _ => ⟨"SKNP_Vx", 0xF0FF, 0xE0A1⟩
  | .ldVxDT _ => ⟨"LD_Vx__DT", 0xF0FF, 0xF007⟩
  | .ldVxK _ => ⟨"LD_Vx__K", 0xF0FF, 0xF00A⟩
  | .ldDTVx _ => ⟨"LD_DT__Vx", 0xF0FF, 0xF015⟩
  | .ldSTVx _ => ⟨"LD_ST__Vx", 0xF0FF, 0xF018⟩
  | .addI _ => ⟨"ADD_I__Vx", 0xF0FF, 0xF01E⟩
  | .ldF _ => ⟨"LD_F__Vx", 0xF0FF, 0xF029⟩
  | .ldB _ => ⟨"LD_B__Vx", 0xF0FF, 0xF033⟩
  | .stRegs _ => ⟨"LD__I___Vx", 0xF0FF, 0xF055⟩
  | .ldRegs _ => ⟨"LD_Vx___I", 0xF0FF, 0xF065⟩

/-- The row is one of the opcode map's and selects the encoded word. -/
def Statement (i : Instr) : Prop := row i ∈ opcodeMap ∧ (row i).selects (encode i) = true

theorem row_mem (i : Instr) : row i ∈ opcodeMap := by
  cases i <;> simp [row, opcodeMap, opcodeMapPlain, opcodeMapXYS, opcodeMapXSS]

theorem cls : Statement .cls := ⟨by decide, by decide⟩
theorem ret : Statement .ret := ⟨by decide, by decide⟩
theorem jp (nnn : Addr12) : Statement (.jp nnn) := ⟨row_mem _, selects_packNNN _ _ _⟩
theorem call (nnn : Addr12) : Statement (.call nnn) := ⟨row_mem _, selects_packNNN _ _ _⟩
theorem seImm (x : RegIx) (nn : Byte) : Statement (.seImm x nn) := ⟨row_mem _, selects_packXNN _ _ _ _⟩
theorem sneImm (x : RegIx) (nn : Byte) : Statement (.sneImm x nn) := ⟨row_mem _, selects_packXNN _ _ _ _⟩
theorem seReg (x : RegIx) (y : RegIx) : Statement (.seReg x y) := ⟨row_mem _, selects_packXYS _ _ _ _ _⟩
theorem ldImm (x : RegIx) (nn : Byte) : Statement (.ldImm x nn) := ⟨row_mem _, selects_packXNN _ _ _ _⟩
theorem addImm (x : RegIx) (nn : Byte) : Statement (.addImm x nn) := ⟨row_mem _, selects_packXNN _ _ _ _⟩
theorem ldReg (x : RegIx) (y : RegIx) : Statement (.ldReg x y) := ⟨row_mem _, selects_packXYS _ _ _ _ _⟩
theorem orReg (x : RegIx) (y : RegIx) : Statement (.orReg x y) := ⟨row_mem _, selects_packXYS _ _ _ _ _⟩
theorem andReg (x : RegIx) (y : RegIx) : Statement (.andReg x y) := ⟨row_mem _, selects_packXYS _ _ _ _ _⟩
theorem xorReg (x : RegIx) (y : RegIx) : Statement (.xorReg x y) := ⟨row_mem _, selects_packXYS _ _ _ _ _⟩
theorem addReg (x : RegIx) (y : RegIx) : Statement (.addReg x y) := ⟨row_mem _, selects_packXYS _ _ _ _ _⟩
theorem subReg (x : RegIx) (y : RegIx) : Statement (.subReg x y) := ⟨row_mem _, selects_packXYS _ _ _ _ _⟩
theorem shr (x : RegIx) (y : RegIx) : Statement (.shr x y) := ⟨row_mem _, selects_packXYS _ _ _ _ _⟩
theorem subnReg (x : RegIx) (y : RegIx) : Statement (.subnReg x y) := ⟨row_mem _, selects_packXYS _ _ _ _ _⟩
theorem shl (x : RegIx) (y : RegIx) : Statement (.shl x y) := ⟨row_mem _, selects_packXYS _ _ _ _ _⟩
theorem sneReg (x : RegIx) (y : RegIx) : Statement (.sneReg x y) := ⟨row_mem _, selects_packXYS _ _ _ _ _⟩
theorem ldI (nnn : Addr12) : Statement (.ldI nnn) := ⟨row_mem _, selects_packNNN _ _ _⟩
theorem jpV0 (nnn : Addr12) : Statement (.jpV0 nnn) := ⟨row_mem _, selects_packNNN _ _ _⟩
theorem rnd (x : RegIx) (nn : Byte) : Statement (.rnd x nn) := ⟨row_mem _, selects_packXNN _ _ _ _⟩
theorem drw (x : RegIx) (y : RegIx) (n : Nibble) : Statement (.drw x y n) := ⟨row_mem _, selects_packXYN _ _ _ _ _⟩
theorem skp (x : RegIx) : Statement (.skp x) := ⟨row_mem _, selects_packXSS _ _ _ _⟩
theorem sknp (x : RegIx) : Statement (.sknp x) := ⟨row_mem _, selects_packXSS _ _ _ _⟩
theorem ldVxDT (x : RegIx) : Statement (.ldVxDT x) := ⟨row_mem _, selects_packXSS _ _ _ _⟩
theorem ldVxK (x : RegIx) : Statement (.ldVxK x) := ⟨row_mem _, selects_packXSS _ _ _ _⟩
theorem ldDTVx (x : RegIx) : Statement (.ldDTVx x) := ⟨row_mem _, selects_packXSS _ _ _ _⟩
theorem ldSTVx (x : RegIx) : Statement (.ldSTVx x) := ⟨row_mem _, selects_packXSS _ _ _ _⟩
theorem addI (x : RegIx) : Statement (.addI x) := ⟨row_mem _, selects_packXSS _ _ _ _⟩
theorem ldF (x : RegIx) : Statement (.ldF x) := ⟨row_mem _, selects_packXSS _ _ _ _⟩
theorem ldB (x : RegIx) : Statement (.ldB x) := ⟨row_mem _, selects_packXSS _ _ _ _⟩
theorem stRegs (x : RegIx) : Statement (.stRegs x) := ⟨row_mem _, selects_packXSS _ _ _ _⟩
theorem ldRegs (x : RegIx) : Statement (.ldRegs x) := ⟨row_mem _, selects_packXSS _ _ _ _⟩

end Sys2Proof.Laws.EncodingRow
end

