-- ==== Sys2Proof/Laws/Step.lean ====
section
/-! SUPPORT. What one operation and one step can do, said once: every later proof about runs starts from these. -/

namespace Sys2Proof.Machine

/-- A step performs one operation on the state with that operation taken. -/
theorem step_eq (s : State) : step s = perform s.nextOp s.takeOp := rfl

theorem State.nextOp_cons (s : State) (op : HostOp) (rest : List HostOp) (h : s.schedule = op :: rest) :
    s.nextOp = op := by simp [State.nextOp, h]

theorem State.takeOp_cons (s : State) (op : HostOp) (rest : List HostOp) (h : s.schedule = op :: rest) :
    s.takeOp = { s with schedule := rest } := by simp [State.takeOp, h]

/-- Taking an operation changes only the model's own schedule and draw counter. -/
theorem State.takeOp_eq (s : State) :
    s.takeOp = { s with schedule := s.takeOp.schedule, draws := s.takeOp.draws } := by
  unfold State.takeOp; split <;> rfl

/-- The word of a fetch inside the address space. -/
theorem State.fetchWord_eq (s : State) (h : s.pc.toNat ≤ 0xFFE) :
    s.fetchWord = some (wordOfBytes (s.readByte s.pc.toNat) (s.readByte (s.pc.toNat + 1))) := by
  have : Memory.inRange s.pc.toNat 2 = true := (Memory.inRange_iff _ _).2 (.inr (by omega))
  simp [State.fetchWord, this]

theorem State.fetchWord_none (s : State) (h : 0xFFE < s.pc.toNat) : s.fetchWord = none := by
  have : Memory.inRange s.pc.toNat 2 = false := by
    rw [Bool.eq_false_iff, Ne, Memory.inRange_iff]; omega
  simp [State.fetchWord, this]

/-- Everything a Cycle can do (R129): nothing on a halted core, the key scan on a waiting one, a fetch fault, a decode
error, or the decoded instruction. -/
theorem cycle_cases (key : Keys) (rnd : Byte) (s : State) :
    (s.halt = true ∧ cycle key rnd s = .next (s.present key rnd)) ∨
    (s.halt = false ∧ s.wait = true ∧ cycle key rnd s = .next (s.present key rnd).scanKeys) ∨
    (s.running ∧ 0xFFE < s.pc.toNat ∧ cycle key rnd s = .next (s.present key rnd).fetchFault) ∨
    (s.running ∧ s.pc.toNat ≤ 0xFFE ∧ ∃ w, s.fetchWord = some w ∧
      ((∃ why, decode w = .error why ∧
          cycle key rnd s = .next (((s.present key rnd).setPc (s.pc + 2)).raiseFault .decodeError w 0)) ∨
       (∃ i, decode w = .ok i ∧ cycle key rnd s = exec i ((s.present key rnd).setPc (s.pc + 2))))) := by
  cases hh : s.halt with
  | true => exact .inl ⟨rfl, by simp [cycle, hh]⟩
  | false =>
    cases hw : s.wait with
    | true => exact .inr (.inl ⟨rfl, rfl, by simp [cycle, hh, hw]⟩)
    | false =>
      have hc : cycle key rnd s = (s.present key rnd).runInstruction := by simp [cycle, hh, hw]
      by_cases hp : s.pc.toNat ≤ 0xFFE
      · refine .inr (.inr (.inr ⟨⟨hh, hw⟩, hp, _, s.fetchWord_eq hp, ?_⟩))
        rw [hc, State.runInstruction, State.fetchWord_eq _ (by simpa using hp)]
        simp only [State.present_readByte, State.present_pc, State.advance_eq, State.dispatch]
        split
        · exact .inr ⟨_, ‹_›, rfl⟩
        · exact .inl ⟨_, ‹_›, rfl⟩
      · refine .inr (.inr (.inl ⟨⟨hh, hw⟩, by omega, ?_⟩))
        rw [hc, State.runInstruction, State.fetchWord_none _ (by simpa using by omega)]

/-- A cleared core's memory reads as the build's font and zeros (R43). -/
theorem State.clearCore_readByte (s : State) (a : Nat) : s.clearCore.readByte a = Memory.blank s.fontset a := rfl

/-- Everything a Reset can do (R270): the core cleared, then the fault or the ROM (R69, R70). -/
theorem resetWith_cases (rom : List Byte) (s : State) :
    (3584 < rom.length ∧ resetWith rom s = s.clearCore.raiseFault .capacityError 0 rom.length) ∨
    (rom.length ≤ 3584 ∧ resetWith rom s = s.clearCore.writeBlock 0x200 rom) := by
  unfold resetWith State.loadRom
  split
  · exact .inl ⟨‹_›, rfl⟩
  · rename_i h
    exact .inr ⟨Nat.le_of_not_lt h, rfl⟩

end Sys2Proof.Machine
end

