-- ==== Sys2Proof/Tests/Slice0.lean ====
section
/-! SUPPORT. The model's own tests: expected results are the rows of spec/95_test_vectors.md (S and V numbers) and the
examples of the rules. Then one witness per statement with hypotheses. -/

namespace Sys2Proof.Tests

open Sys2Proof.Machine

/-! ## Helpers -/

/-- The outcome is a next state that satisfies `p`. -/
def lands (r : Result) (p : State → Bool) : Bool :=
  match r with
  | .next t => p t
  | .fault _ => false
  | .refused _ => false

/-- Registers set on the reset state. -/
def regs (l : List (RegIx × Byte)) : State := l.foldl (fun s p => s.setV p.1 p.2) State.reset

/-- Bytes put at `0x300`, with `I` there. -/
def data (s : State) (bs : List Byte) : State := (s.writeBlock 0x300 bs).setI 0x300

/-- The word runs as the next step, fetched at `PC`. -/
def run1 (s : State) (w : Nat) : Result := step (s.withFetchWord 16 w)

/-- One pixel lit. -/
def lit (s : State) (px py : Nat) : State := s.setFb (setPixel s.fb px py true)

/-- A state with one return address held. -/
def called : State := { State.reset with stack := State.reset.stack.set 0 0x456, sp := 1 }

/-- A state with all sixteen return addresses held. -/
def full : State := { State.reset with sp := 16 }

/-! ## Well-formed words: an ill-formed term for each check (R96, V3) -/

theorem test_illFormed_system : wordWellFormed 0x00E1 = false ∧ wordWellFormed 0x01E0 = false := by decide
theorem test_illFormed_skip : wordWellFormed 0x5121 = false ∧ wordWellFormed 0x9AB1 = false := by decide
theorem test_illFormed_alu : wordWellFormed 0x8AB8 = false ∧ wordWellFormed 0x8ABF = false := by decide
theorem test_illFormed_key : wordWellFormed 0xE19F = false ∧ wordWellFormed 0xE0A0 = false := by decide
theorem test_illFormed_misc : wordWellFormed 0xF100 = false ∧ wordWellFormed 0xFFFF = false := by decide
theorem test_wellFormed : wordWellFormed 0x00EE = true ∧ wordWellFormed 0x8ABE = true ∧ Instr.wellFormed .cls = true := by
  decide

/-! ## Decoding: words written out bit by bit from the patterns of R95 -/

theorem test_decode_fixed : decode 0b0000000011100000 = .ok .cls ∧ decode 0b0000000011101110 = .ok .ret := by decide

theorem test_decode_nnn :
    decode 0b0001101010111100 = .ok (.jp 0xABC) ∧ decode 0b0010001000001010 = .ok (.call 0x20A) ∧
    decode 0b1010111111111110 = .ok (.ldI 0xFFE) ∧ decode 0b1011001100000000 = .ok (.jpV0 0x300) := by decide

theorem test_decode_xnn :
    decode 0b0011101001000010 = .ok (.seImm 0xA 0x42) ∧ decode 0b0100101001000010 = .ok (.sneImm 0xA 0x42) ∧
    decode 0b0110101001111011 = .ok (.ldImm 0xA 0x7B) ∧ decode 0b0111000111111111 = .ok (.addImm 0x1 0xFF) ∧
    decode 0b1100001100001111 = .ok (.rnd 0x3 0x0F) := by decide

theorem test_decode_xys :
    decode 0b0101101010110000 = .ok (.seReg 0xA 0xB) ∧ decode 0b1001101010110000 = .ok (.sneReg 0xA 0xB) ∧
    decode 0b1000000100110000 = .ok (.ldReg 0x1 0x3) ∧ decode 0b1000000100100001 = .ok (.orReg 0x1 0x2) ∧
    decode 0b1000000100100010 = .ok (.andReg 0x1 0x2) ∧ decode 0b1000000100100011 = .ok (.xorReg 0x1 0x2) := by decide

theorem test_decode_flag_writers :
    decode 0b1000111100010100 = .ok (.addReg 0xF 0x1) ∧ decode 0b1000000011110101 = .ok (.subReg 0x0 0xF) ∧
    decode 0b1000000100100110 = .ok (.shr 0x1 0x2) ∧ decode 0b1000000100100111 = .ok (.subnReg 0x1 0x2) ∧
    decode 0b1000000100101110 = .ok (.shl 0x1 0x2) := by decide

theorem test_decode_xyn_and_keys :
    decode 0b1101000000010010 = .ok (.drw 0x0 0x1 0x2) ∧ decode 0b1110001110011110 = .ok (.skp 0x3) ∧
    decode 0b1110001110100001 = .ok (.sknp 0x3) := by decide

theorem test_decode_misc :
    decode 0b1111010000000111 = .ok (.ldVxDT 0x4) ∧ decode 0b1111001100001010 = .ok (.ldVxK 0x3) ∧
    decode 0b1111001100010101 = .ok (.ldDTVx 0x3) ∧ decode 0b1111001000011000 = .ok (.ldSTVx 0x2) ∧
    decode 0b1111000100011110 = .ok (.addI 0x1) ∧ decode 0b1111000000101001 = .ok (.ldF 0x0) ∧
    decode 0b1111000000110011 = .ok (.ldB 0x0) ∧ decode 0b1111001001010101 = .ok (.stRegs 0x2) ∧
    decode 0b1111001001100101 = .ok (.ldRegs 0x2) := by decide

/-- R65: the byte at the lower address is the high byte (V1). -/
theorem test_decode_bytes : decodeBytes [0xA2, 0xF0, 0x12] = .ok (.ldI 0x2F0, [0x12]) := by decide

theorem test_decode_truncated : decodeBytes [0xA2] = .error .truncated := by decide

/-- V3: the rejects have the names of their families. -/
theorem test_decode_rejects :
    decode 0x0000 = .error (.system 0x0000) ∧ decode 0x512F = .error (.skipEqual 0x512F) ∧
    decode 0x8ABD = .error (.alu 0x8ABD) ∧ decode 0x9AB1 = .error (.skipDiffer 0x9AB1) ∧
    decode 0xE100 = .error (.key 0xE100) ∧ decode 0xF10B = .error (.misc 0xF10B) := by decide

theorem test_decodeTableWord : decodeTableWord 16 0x6A7B = some (.ldImm 0xA 0x7B) ∧ decodeTableWord 16 0x01E0 = none := by
  decide

theorem test_encode : encode (.drw 0xD 0x5 0x1) = 0xDD51 ∧ encode (.ldB 0x7) = 0xF733 := by decide

/-! ## Reset and the operations -/

/-- V120: the font, the entry point, an empty stack. -/
theorem test_reset : State.reset.pc = 0x200 ∧ State.reset.sp = 0 ∧ State.reset.readByte 0x4B = 0xF0 ∧
    State.reset.readByte 0x19 = 0xF0 ∧ State.reset.readByte 0x50 = 0 ∧ State.reset.memoryWf = true := by
  decide

/-- V120, V123: ROM `12 00` at `0x200`, the display kept. -/
theorem test_reset_rom :
    (resetWith [0x12, 0x00] (lit State.reset 3 4)).readByte 0x200 = 0x12 ∧
    (resetWith [0x12, 0x00] (lit State.reset 3 4)).readByte 0x202 = 0 ∧
    getPixel (resetWith [0x12, 0x00] (lit State.reset 3 4)).fb 3 4 = true := by decide

/-- V125: 3585 bytes are one too many. -/
theorem test_reset_capacity (rom : List Byte) (h : rom.length = 3585) :
    (resetWith rom State.reset).err = ⟨.capacityError, 0x200, 0, 0xE01⟩ := by
  simp only [resetWith, State.loadRom, h]; rfl

/-- V110, V111: a Tick counts down and stops at zero. -/
theorem test_tick : (tick { State.reset with dt := 0xFF }).dt = 0xFE ∧ (tick State.reset).dt = 0 ∧
    (tick State.reset).tone = false := by decide

/-- V109: `ST = 1` gives one Tick with tone. -/
theorem test_tick_tone : (tick { State.reset with st := 1 }).tone = true ∧ (tick { State.reset with st := 1 }).st = 0 := by
  decide

/-- R45: a Cycle after a sounding Tick gives `TONE = 0`, on a waiting core too, and so does a Reset. -/
theorem test_tone_outside_tick :
    lands (cycle 0 0 (tick { State.reset with st := 2, wait := true })) (fun t => !t.tone && t.st == 1) = true ∧
    (resetWith [] (tick { State.reset with st := 2 })).tone = false := by decide

/-- R6: another build's FONTSET is what its Reset puts at the bottom of memory. -/
theorem test_fontset :
    (resetWith [] { State.reset with fontset := Vector.replicate 80 0xAA }).readByte 0x4F = 0xAA ∧
    (resetWith [] { State.reset with fontset := Vector.replicate 80 0xAA }).readByte 0x50 = 0 := by decide

/-- V104: the lowest of two held keys ends the wait. -/
theorem test_keyWait :
    lands (cycle 0x8001 0 { State.reset with wait := true, waitReg := 3 }) fun t =>
      t.readV 3 == 0 && !t.wait && t.pc == 0x200 := by decide

/-- V105: key 15 goes to `VF`. -/
theorem test_keyWait_VF :
    lands (cycle 0x8000 0 { State.reset with wait := true, waitReg := 15 }) fun t => t.readV 15 == 0xF && !t.wait := by
  decide

/-- V2: an empty ROM meets the word `0000`. -/
theorem test_decodeError :
    lands (cycle 0 0 State.reset) fun t => t.halt && t.err == ⟨.decodeError, 0x202, 0, 0⟩ && t.pc == 0x202 := by decide

/-- V4: the fetch at `0xFFF` needs `0x1000`. -/
theorem test_fetchFault :
    lands (cycle 0 0 (State.reset.setPc 0xFFF)) fun t => t.err == ⟨.addressRange, 0xFFF, 0, 0x1000⟩ && t.pc == 0xFFF := by
  decide

/-- V23: the fetch at `0x10FE`. -/
theorem test_fetchFault_high :
    lands (cycle 0 0 (State.reset.setPc 0x10FE)) fun t => t.err == ⟨.addressRange, 0x10FE, 0, 0x10FE⟩ := by decide

/-- V7: a halted core does nothing. -/
theorem test_halted :
    lands (cycle 0xFFFF 0xFF { State.reset with halt := true }) fun t => t.pc == 0x200 && t.err == .clear := by decide

/-- The host's question on a halted, waiting state whose `PC` has left memory: the instruction runs (log 3). -/
theorem test_withFetchWord :
    lands (run1 { State.reset with halt := true, wait := true, pc := 0x10FE } 0x6A7B) fun t =>
      t.readV 0xA == 0x7B && t.pc == 0x202 := by decide

/-! ## Control flow -/

theorem test_ret_V15 : lands (run1 called 0x00EE) fun t => t.pc == 0x456 && t.sp == 0 && t.stack[0] == 0x456 := by decide
theorem test_ret_V16 :
    lands (run1 State.reset 0x00EE) fun t => t.halt && t.err == ⟨.stackUnderflow, 0x202, 0x00EE, 0⟩ && t.pc == 0x202 := by
  decide
theorem test_jp_V10 : lands (run1 State.reset 0x1ABC) fun t => t.pc == 0xABC && t.sp == 0 := by decide
theorem test_call_V13 : lands (run1 State.reset 0x2300) fun t => t.pc == 0x300 && t.sp == 1 && t.stack[0] == 0x202 := by
  decide
theorem test_call_V14 :
    lands (run1 full 0x2300) fun t => t.err == ⟨.stackOverflow, 0x202, 0x2300, 0⟩ && t.sp == 16 && t.pc == 0x202 := by decide
theorem test_seImm_V17 :
    (lands (run1 (regs [(0xA, 0x42)]) 0x3A42) fun t => t.pc == 0x204) ∧
    lands (run1 (regs [(0xA, 0x41)]) 0x3A42) fun t => t.pc == 0x202 := by decide
theorem test_sneImm_V18 :
    (lands (run1 (regs [(0xA, 0x42)]) 0x4A42) fun t => t.pc == 0x202) ∧
    lands (run1 (regs [(0xA, 0x41)]) 0x4A42) fun t => t.pc == 0x204 := by decide
theorem test_seReg_V19 :
    (lands (run1 (regs [(0xA, 7), (0xB, 7)]) 0x5AB0) fun t => t.pc == 0x204) ∧
    lands (run1 (regs [(0xA, 7), (0xB, 8)]) 0x5AB0) fun t => t.pc == 0x202 := by decide
theorem test_sneReg_V21 :
    (lands (run1 (regs [(0xA, 1), (0xB, 2)]) 0x9AB0) fun t => t.pc == 0x204) ∧
    lands (run1 (regs [(0xA, 1), (0xB, 1)]) 0x9AB0) fun t => t.pc == 0x202 := by decide
theorem test_jpV0_V23 : lands (run1 (regs [(0, 0xFF)]) 0xBFFF) fun t => t.pc == 0x10FE && !t.halt := by decide

/-! ## ALU -/

theorem test_ldImm_V30 : lands (run1 State.reset 0x6FAB) fun t => t.readV 15 == 0xAB := by decide
theorem test_addImm_V32 : lands (run1 (regs [(15, 1)]) 0x70FF) fun t => t.readV 0 == 0xFF && t.readV 15 == 1 := by decide
theorem test_ldReg_V34 : lands (run1 (regs [(1, 0xAB), (15, 1)]) 0x8010) fun t => t.readV 0 == 0xAB && t.readV 15 == 1 := by
  decide
theorem test_orReg_V35 :
    lands (run1 (regs [(0, 0x0F), (1, 0xF0), (15, 1)]) 0x8011) fun t => t.readV 0 == 0xFF && t.readV 15 == 1 := by decide
theorem test_andReg_V36 :
    lands (run1 (regs [(0, 0x3C), (1, 0x0F), (15, 1)]) 0x8012) fun t => t.readV 0 == 0x0C && t.readV 15 == 1 := by decide
theorem test_xorReg_V37 :
    lands (run1 (regs [(0, 0xFF), (1, 0x0F), (15, 1)]) 0x8013) fun t => t.readV 0 == 0xF0 && t.readV 15 == 1 := by decide
theorem test_addReg_S2 : lands (run1 (regs [(0, 0xFF), (1, 1)]) 0x8014) fun t => t.readV 0 == 0 && t.readV 15 == 1 := by
  decide
theorem test_addReg_V42 : lands (run1 (regs [(15, 0xF0), (1, 0x20)]) 0x8F14) fun t => t.readV 15 == 1 := by decide
theorem test_subReg_S5 : lands (run1 (regs [(0, 3), (1, 5), (15, 1)]) 0x8015) fun t => t.readV 0 == 0xFE && t.readV 15 == 0 := by
  decide
theorem test_subReg_V44 : lands (run1 (regs [(0, 7), (1, 7)]) 0x8015) fun t => t.readV 0 == 0 && t.readV 15 == 1 := by decide
theorem test_subnReg_V46 : lands (run1 (regs [(0, 3), (1, 5)]) 0x8017) fun t => t.readV 0 == 2 && t.readV 15 == 1 := by decide
theorem test_subnReg_V47 : lands (run1 (regs [(0, 5), (1, 3), (15, 1)]) 0x8017) fun t => t.readV 0 == 0xFE && t.readV 15 == 0 := by
  decide
theorem test_shr_V48 :
    lands (run1 (regs [(0, 5), (1, 0xFF)]) 0x8016) fun t => t.readV 0 == 2 && t.readV 15 == 1 && t.readV 1 == 0xFF := by decide
theorem test_shr_V50 : lands (run1 (regs [(15, 3)]) 0x8F16) fun t => t.readV 15 == 1 := by decide
theorem test_shl_V51 : lands (run1 (regs [(0, 0x81)]) 0x801E) fun t => t.readV 0 == 2 && t.readV 15 == 1 := by decide
theorem test_shl_V52 : lands (run1 (regs [(0, 0x40), (15, 1)]) 0x801E) fun t => t.readV 0 == 0x80 && t.readV 15 == 0 := by
  decide
theorem test_rnd_V54 : lands (run1 { State.reset with rnd := 0xA7 } 0xC10F) fun t => t.readV 1 == 0x07 := by decide

/-! ## Index register and memory -/

theorem test_ldI_V60 : lands (run1 State.reset 0xAFFF) fun t => t.i == 0xFFF := by decide
theorem test_addI_V61 : lands (run1 ((regs [(1, 3)]).setI 0xFFE) 0xF11E) fun t => t.i == 1 && t.readV 15 == 1 := by decide
theorem test_addI_V64 : lands (run1 ((regs [(15, 2)]).setI 0x10) 0xFF1E) fun t => t.i == 0x12 && t.readV 15 == 0 := by decide
theorem test_ldF_V67 : lands (run1 (regs [(0, 0xFF)]) 0xF029) fun t => t.i == 0x4FB := by decide
theorem test_ldB_V68 :
    lands (run1 ((regs [(0, 0xFF)]).setI 0x300) 0xF033) fun t => t.readBlock 0x300 3 == [2, 5, 5] && t.i == 0x300 := by
  decide
theorem test_ldB_V71 :
    lands (run1 ((regs [(0, 0x7B)]).setI 0xFFE) 0xF033) fun t =>
      t.err == ⟨.addressRange, 0x202, 0xF033, 0x1000⟩ && t.readByte 0xFFE == 0 := by decide
theorem test_stRegs_V72 :
    lands (run1 ((regs [(0, 1), (1, 2), (2, 3), (3, 4)]).setI 0x300) 0xF255) fun t =>
      t.readBlock 0x300 4 == [1, 2, 3, 0] && t.i == 0x303 := by decide
theorem test_stRegs_V75 :
    lands (run1 (State.reset.setI 0xFF1) 0xFF55) fun t => t.err == ⟨.addressRange, 0x202, 0xFF55, 0x1000⟩ && t.i == 0xFF1 := by
  decide
theorem test_ldRegs_V76 :
    lands (run1 (data (regs [(3, 0x77)]) [2, 5, 4, 9]) 0xF265) fun t =>
      t.readVs 4 == [2, 5, 4, 0x77] && t.i == 0x303 := by decide
theorem test_ldRegs_V77 :
    lands (run1 State.reset 0xFF65) fun t =>
      t.readVs 16 == [0xF0, 0x90, 0x90, 0x90, 0xF0, 0x20, 0x60, 0x20, 0x20, 0x70, 0xF0, 0x10, 0xF0, 0x80, 0xF0, 0xF0] &&
      t.i == 0x10 := by decide

/-! ## Display -/

theorem test_cls_V80 :
    lands (run1 ((lit State.reset 5 6).setV 15 1) 0x00E0) fun t => !getPixel t.fb 5 6 && t.readV 15 == 1 := by decide
theorem test_drw_V83 :
    lands (run1 (data (lit (regs [(1, 0x1E)]) 0 31) [0x80, 0x80, 0x80]) 0xD013) fun t =>
      getPixel t.fb 0 30 && !getPixel t.fb 0 31 && !getPixel t.fb 0 0 && t.readV 15 == 1 := by decide
theorem test_drw_V81 :
    lands (run1 (data (regs [(0, 0x3C), (15, 1)]) [0xFF]) 0xD011) fun t =>
      !getPixel t.fb 59 0 && getPixel t.fb 60 0 && getPixel t.fb 63 0 && !getPixel t.fb 0 0 && t.readV 15 == 0 := by decide
theorem test_drw_V88 :
    lands (run1 ((State.reset.setI 0xFFF).setV 15 1) 0xD012) fun t =>
      t.err == ⟨.addressRange, 0x202, 0xD012, 0x1000⟩ && t.readV 15 == 1 := by decide

/-! ## Keyboard and timers -/

theorem test_skp_V100 :
    (lands (run1 { regs [(1, 0xA)] with key := 0x0400 } 0xE19E) fun t => t.pc == 0x204) ∧
    lands (run1 { regs [(1, 0xA)] with key := 0xFBFF } 0xE19E) fun t => t.pc == 0x202 := by decide
theorem test_skp_V102 :
    lands (run1 (regs [(1, 0x10)]) 0xE19E) fun t => t.halt && t.err == ⟨.keyIndexRange, 0x202, 0xE19E, 0x10⟩ := by decide
theorem test_sknp_V101 :
    (lands (run1 { regs [(1, 0xA)] with key := 0x0400 } 0xE1A1) fun t => t.pc == 0x202) ∧
    lands (run1 (regs [(1, 0xA)]) 0xE1A1) fun t => t.pc == 0x204 := by decide
theorem test_ldVxK_V103 :
    lands (run1 { State.reset with key := 0xFFFF } 0xF30A) fun t =>
      t.wait && t.waitReg == 3 && t.pc == 0x202 && t.readV 3 == 0 := by decide
theorem test_ldVxDT_V107 : lands (run1 { State.reset with dt := 6 } 0xF407) fun t => t.readV 4 == 6 && t.dt == 6 := by decide
theorem test_ldDTVx_V108 : lands (run1 (regs [(3, 7)]) 0xF315) fun t => t.dt == 7 := by decide
theorem test_ldSTVx_V109 : lands (run1 (regs [(2, 2)]) 0xF218) fun t => t.st == 2 && !t.tone := by decide

/-! ## Witnesses: a state and operands that meet the hypotheses of each statement that has some, at the boundary values
of its clauses -/

/-- A running state whose next operation is a Cycle, with `6A7B` at `PC = 0xFFE`, the last place a fetch can start. -/
def atTop : State :=
  { State.reset with
    mem := Memory.writeRange defaultFontset [] 0xFFE [0x6A, 0x7B], pc := 0xFFE, schedule := [.cycle 0x0480 0xA7, .tick] }

/-- A state in the middle of a run: one call deep, `I` past the top of memory after a block, a byte stored. -/
def busy : State := { called with mem := Memory.write defaultFontset [] 0x300 9, i := 0x1000, pc := 0x1002, dt := 3, waitReg := 2 }

theorem witness_DecodeOfEncode : (Instr.drw 0xF 0 0xF).wellFormed = true := by decide
theorem witness_EncodeOfDecode : decode 0x8AB6 = .ok (.shr 0xA 0xB) := by decide
theorem witness_OpcodeMapIsDisjointAndComplete :
    ∃ (w : Word) (r r' : OpcodeRow), r ∈ opcodeMap ∧ r' ∈ opcodeMap ∧ r.selects w = true ∧ r'.selects w = true :=
  ⟨0x8AB6, ⟨"SHR_Vx", 0xF00F, 0x8006⟩, ⟨"SHR_Vx", 0xF00F, 0x8006⟩, by decide⟩
theorem witness_StepPerformsNextOperation :
    atTop.schedule = [.cycle 0x0480 0xA7, .tick] ∧ State.reset.schedule = [] := by decide
theorem witness_StepRunsDecodedInstruction :
    atTop.schedule = .cycle 0x0480 0xA7 :: [.tick] ∧ atTop.running ∧ atTop.pc.toNat ≤ 0xFFE ∧
    decode (wordOfBytes (atTop.readByte atTop.pc.toNat) (atTop.readByte (atTop.pc.toNat + 1))) =
      .ok (.ldImm 0xA 0x7B) ∧ (Instr.ldImm 0xA 0x7B).wellFormed = true := by decide
theorem witness_HaltedCoreChangesNothing : ({ State.reset with halt := true } : State).halt = true := rfl
theorem witness_KeyWaitTakesLowestKey :
    ∃ s : State, s.halt = false ∧ s.wait = true ∧ keyHeld 0x8000 15 = true ∧ ∀ j, j < 15 → keyHeld 0x8000 j = false :=
  ⟨State.reset.enterWait 15, by decide⟩
/-- V11: `1200` at `0200`. -/
theorem witness_EndedProgramStaysEnded :
    ({ State.reset with mem := Memory.writeRange defaultFontset [] 0x200 [0x12, 0x00] } : State).EndedAt 0x200 := by
  refine ⟨?_, ?_, ?_⟩ <;> decide
theorem witness_FetchOutsideMemoryHalts :
    (State.reset.setPc 0xFFF).running ∧ 0xFFE < (State.reset.setPc 0xFFF).pc.toNat ∧
    0xFFF < (State.reset.setPc 0x1000).pc.toNat := by decide
theorem witness_UnmatchedWordRaisesDecodeError :
    State.reset.running ∧ State.reset.pc.toNat ≤ 0xFFE ∧
    (0 : Word) = wordOfBytes (State.reset.readByte 0x200) (State.reset.readByte 0x201) ∧
    ∀ r ∈ opcodeMap, r.selects 0 = false := by decide
theorem witness_TickCountsTimersDown :
    busy.halt = false ∧ busy.dt.toNat = 3 ∧ busy.st.toNat = 0 ∧ ({ busy with halt := true } : State).halt = true := by decide
theorem witness_ToneSoundsForExactlySTTicks :
    ({ busy with st := 2 } : State).halt = false ∧ 1 < ({ busy with st := 2 } : State).st.toNat := by decide
theorem witness_CycleLeavesTimersAlone :
    lands (cycle 0 0 atTop) (fun _ => true) = true ∧
    lands (cycle 0 0 (((regs [(3, 7)]).withFetchWord 16 0xF315))) (fun t => t.dt == 7) = true := by decide
theorem witness_FaultsArePrecise : ∃ s t : State, s.halt = false ∧ exec .ret s = .next t ∧ t.halt = true :=
  ⟨State.reset, _, rfl, rfl, rfl⟩
theorem witness_OnlyResetLeavesHalt :
    ∃ s t : State, s.halt = true ∧ (∀ rom clears, s.nextOp ≠ .reset rom clears) ∧ step s = .next t :=
  ⟨{ State.reset with halt := true, schedule := [.tick] }, _, rfl, by simp [State.nextOp], rfl⟩
theorem witness_ResetRebuildsCore :
    (List.replicate 3584 (1 : Byte)).length ≤ 3584 ∧ 3584 < (List.replicate 3585 (1 : Byte)).length := by
  rw [List.length_replicate, List.length_replicate]; decide
theorem witness_OversizedRomRaisesCapacityError :
    3584 < (List.replicate 3585 (1 : Byte)).length ∧ (List.replicate 3584 (1 : Byte)).length ≤ 3584 ∧
    lands (cycle 0 0 { State.reset with halt := true, err := ⟨.capacityError, 0x200, 0, 0xE01⟩ })
      (fun t => t.err.code == .capacityError) = true := by
  rw [List.length_replicate, List.length_replicate]; decide
theorem witness_JumpSetsCounter : State.reset.running ∧ (0x204 : Addr12) ≠ 0xFFF := by decide
theorem witness_CallPushesReturnAddress : ({ full with sp := 15 } : State).sp.toNat < 16 := by decide
theorem witness_ReturnPopsAddress :
    called.sp.toNat = (0 : Fin 16).val + 1 ∧ full.sp.toNat = (15 : Fin 16).val + 1 := by decide
theorem witness_StackFaultsHalt : full.sp.toNat = 16 ∧ State.reset.sp.toNat = 0 := by decide
theorem witness_CallThenReturnRoundTrip :
    ∃ s t u : State, s.sp.toNat < 16 ∧ exec (.call 0x300) s = .next t ∧ u.sp = t.sp ∧ u.stack = t.stack :=
  ⟨{ full with sp := 15 }, _, _, by decide, rfl, rfl, rfl⟩
theorem witness_DecimalDigitsAreStored : (State.reset.setI 0xFFD).i.toNat ≤ 0xFFD := by decide
theorem witness_RegistersAreStored : (State.reset.setI 0xFF0).i.toNat + (15 : RegIx).toNat ≤ 0xFFF := by decide
theorem witness_RegistersAreLoaded : (State.reset.setI 0xFFF).i.toNat + (0 : RegIx).toNat ≤ 0xFFF := by decide
theorem witness_BlockOutsideMemoryHalts :
    0xFFF < (State.reset.setI 0xFFE).i.toNat + 3 - 1 ∧ 0xFFF < (State.reset.setI 0xFF1).i.toNat + ((15 : RegIx).toNat + 1) - 1 ∧
    0xFFF < (State.reset.setI 0x1000).i.toNat + ((0 : RegIx).toNat + 1) - 1 ∧
    0 < (2 : Nibble).toNat ∧ 0xFFF < (State.reset.setI 0xFFF).i.toNat + (2 : Nibble).toNat - 1 := by decide
theorem witness_StoredCodeIsFetched :
    ∃ s t u : State, s.i.toNat + (1 : RegIx).toNat ≤ 0xFFF ∧ (1 : RegIx).toNat = (0 : RegIx).toNat + 1 ∧
      (1 : RegIx).toNat ≤ (1 : RegIx).toNat ∧ exec (.stRegs 1) s = .next t ∧ (∀ a, u.readByte a = t.readByte a) ∧
      u.pc.toNat = s.i.toNat + (0 : RegIx).toNat :=
  ⟨State.reset.setI 0x208, _, { State.reset with pc := 0x208, mem := _ }, by decide, by decide, by decide, rfl,
    fun _ => rfl, by decide⟩
theorem witness_DrawXorsClippedSprite :
    (0 : Nibble).toNat = 0 ∧ (State.reset.setI 0xFFF).i.toNat + (1 : Nibble).toNat - 1 ≤ 0xFFF := by decide
theorem witness_Collides : Collides (data (lit State.reset 0 0) [0x80]) 0 1 1 := ⟨0, 0, by decide, by decide, by decide, by decide⟩
theorem witness_not_Collides : ¬Collides State.reset 0 1 0 := by
  rintro ⟨px, py, _, _, h, _⟩
  simp [State.reset] at h
theorem witness_DrawTwiceRestoresScreen :
    ∃ s t u : State, s.halt = false ∧ exec (.drw 0 1 1) s = .next t ∧ t.halt = false ∧ t.readV 0 = s.readV 0 ∧
      t.readV 1 = s.readV 1 ∧ exec (.drw 0 1 1) t = .next u :=
  ⟨data State.reset [0x80], _, _, rfl, rfl, rfl, rfl, rfl, rfl⟩
theorem witness_OffScreenDrawChangesNoPixel :
    64 ≤ ((regs [(0, 64)]).readV 0).toNat ∧ 32 ≤ ((regs [(1, 32)]).readV 1).toNat := by decide
theorem witness_KeySkipsTestSample : ((regs [(1, 15)]).readV 1).toNat ≤ 15 := by decide
theorem witness_KeyIndexOutOfRangeHalts : 15 < ((regs [(1, 16)]).readV 1).toNat := by decide
theorem witness_InstructionChangesOnlyItsParts : ∃ t, exec (.addReg 1 15) busy = .next t := ⟨_, rfl⟩
theorem witness_InstructionWritesOnlyItsRegisters :
    (∃ t, exec (.ldRegs 2) State.reset = .next t) ∧ (Instr.ldRegs 2).writesV 3 = false := ⟨⟨_, rfl⟩, by decide⟩
theorem witness_StoresChangeOnlyTheirBlock :
    (∃ t, exec (.ldB 0) State.reset = .next t) ∧ ∃ t, exec (.stRegs 15) busy = .next t := ⟨⟨_, rfl⟩, ⟨_, rfl⟩⟩
theorem witness_ExecStopsOnlyWithoutStackEntry :
    exec .ret { State.reset with sp := 17 } = .fault .noStackEntry ∧
    exec (.call 0) { State.reset with sp := 17 } = .fault .noStackEntry := ⟨rfl, rfl⟩
theorem witness_busy_Inv : busy.Inv := ⟨by decide, by decide, by decide, by decide, by decide, by decide⟩
theorem witness_EveryStepKeepsInvariant : ∃ t, step { busy with schedule := [.tick] } = .next t := ⟨_, rfl⟩
theorem witness_EveryStepKeepsMemoryCanonical :
    busy.memoryWf = true ∧ ∃ t, step { busy with schedule := [.reset [0x12, 0x00] true] } = .next t := ⟨by decide, _, rfl⟩

end Sys2Proof.Tests
end

section
/-! SUPPORT. What each operation on the state leaves unchanged (R38), in the terms of `OnlyChanges`. -/

namespace Sys2Proof.Machine

variable {s t u : State} {ps qs : List Part}

/-! ### Frames compose -/

/-- A frame, part by part. -/
theorem onlyChanges_iff : OnlyChanges ps s t ↔
    (.registers ∉ ps → Part.registers.same s t) ∧ (.index ∉ ps → Part.index.same s t) ∧
    (.counter ∉ ps → Part.counter.same s t) ∧ (.stack ∉ ps → Part.stack.same s t) ∧
    (.delay ∉ ps → Part.delay.same s t) ∧ (.sound ∉ ps → Part.sound.same s t) ∧
    (.tone ∉ ps → Part.tone.same s t) ∧ (.memory ∉ ps → Part.memory.same s t) ∧
    (.keyWait ∉ ps → Part.keyWait.same s t) ∧ (.fault ∉ ps → Part.fault.same s t) ∧
    (.screen ∉ ps → Part.screen.same s t) ∧ (.inputs ∉ ps → Part.inputs.same s t) ∧
    (.font ∉ ps → Part.font.same s t) ∧ (.host ∉ ps → Part.host.same s t) := by
  constructor
  · intro h
    exact ⟨h _, h _, h _, h _, h _, h _, h _, h _, h _, h _, h _, h _, h _, h _⟩
  · rintro ⟨_, _, _, _, _, _, _, _, _, _, _, _, _, _⟩ p
    cases p <;> assumption

theorem Part.same_trans {p : Part} (h : p.same s t) (h' : p.same t u) : p.same s u := by
  cases p <;> simp_all [Part.same]

theorem OnlyChanges.mono (h : OnlyChanges ps s t) (hs : ps ⊆ qs) : OnlyChanges qs s t :=
  fun p hp => h p fun hps => hp (hs hps)

theorem OnlyChanges.trans (h : OnlyChanges ps s t) (h' : OnlyChanges qs t u) : OnlyChanges (ps ++ qs) s u :=
  fun p hp => Part.same_trans (h p fun hps => hp (List.mem_append_left _ hps))
    (h' p fun hqs => hp (List.mem_append_right _ hqs))

/-! ### One frame per operation -/

section
variable (s)

theorem onlyChanges_setV (x : RegIx) (b : Byte) : OnlyChanges [.registers] s (s.setV x b) := by
  simp [onlyChanges_iff, Part.same]

theorem onlyChanges_setI (w : Word) : OnlyChanges [.index] s (s.setI w) := by
  simp [onlyChanges_iff, Part.same]

theorem onlyChanges_setPc (w : Word) : OnlyChanges [.counter] s (s.setPc w) := by
  simp [onlyChanges_iff, Part.same]

theorem onlyChanges_setDt (b : Byte) : OnlyChanges [.delay] s (s.setDt b) := by
  simp [onlyChanges_iff, Part.same]

theorem onlyChanges_setSt (b : Byte) : OnlyChanges [.sound] s (s.setSt b) := by
  simp [onlyChanges_iff, Part.same]

theorem onlyChanges_setFb (fb : Framebuffer) : OnlyChanges [.screen] s (s.setFb fb) := by
  simp [onlyChanges_iff, Part.same]

theorem onlyChanges_enterWait (x : RegIx) : OnlyChanges [.keyWait] s (s.enterWait x) := by
  simp [onlyChanges_iff, Part.same]

theorem onlyChanges_raiseFault (c : ErrCode) (w : Word) (n : Nat) : OnlyChanges [.fault] s (s.raiseFault c w n) := by
  simp [onlyChanges_iff, Part.same]

theorem onlyChanges_writeBlock (a : Nat) (bs : List Byte) : OnlyChanges [.memory] s (s.writeBlock a bs) := by
  simp [onlyChanges_iff, Part.same]

theorem onlyChanges_writeVs (k : Nat) (bs : List Byte) : OnlyChanges [.registers] s (s.writeVs k bs) := by
  rw [State.writeVs_eq]
  simp [onlyChanges_iff, Part.same, State.readByte]

theorem onlyChanges_setStack (stack : Vector Word 16) (sp : Byte) :
    OnlyChanges [.stack] s { s with stack := stack, sp := sp } := by
  simp [onlyChanges_iff, Part.same, State.readByte, State.readV]

theorem onlyChanges_skipIf (c : Bool) : OnlyChanges [.counter] s (s.skipIf c) := by
  rw [State.skipIf_eq]; exact onlyChanges_setPc s _

theorem onlyChanges_setWithFlag (x : RegIx) (b : Byte) (f : Bool) :
    OnlyChanges [.registers] s (s.setWithFlag x b f) :=
  ((onlyChanges_setV s x b).trans (onlyChanges_setV _ VF (flagByte f))).mono (by simp)

theorem onlyChanges_drawSprite (x y : RegIx) (rows : List Byte) :
    OnlyChanges [.registers, .screen] s (s.drawSprite x y rows) :=
  ((onlyChanges_setFb s _).trans (onlyChanges_setV _ VF _)).mono (by simp)

/-- A key skip moves `PC` or takes the fault. -/
theorem onlyChanges_keySkip (k : Byte) (w : Word) (c : Bool) :
    OnlyChanges [.counter, .fault] s (s.keySkip k w c) := by
  obtain ⟨-, h⟩ | ⟨-, h⟩ := s.keySkip_cases k w c <;> rw [h]
  · exact (onlyChanges_raiseFault s _ _ _).mono (by simp)
  · exact (onlyChanges_skipIf s c).mono (by simp)

end

/-- A block operation changes what its effect changes, or takes the fault. -/
theorem OnlyChanges.withBlock {k : State} (h : OnlyChanges ps s k) (n : Nat) (w : Word) :
    OnlyChanges (ps ++ [.fault]) s (s.withBlock n w k) := by
  obtain ⟨-, e⟩ | ⟨-, e⟩ := s.withBlock_cases n w k <;> rw [e]
  · exact h.mono (List.subset_append_left _ _)
  · exact (onlyChanges_raiseFault s _ _ _).mono (List.subset_append_right _ _)

/-- A block operation writes a register only if its effect does. -/
theorem State.readV_withBlock {k : State} {r : RegIx} (h : k.readV r = s.readV r) (n : Nat) (w : Word) :
    (s.withBlock n w k).readV r = s.readV r := by
  obtain ⟨-, e⟩ | ⟨-, e⟩ := s.withBlock_cases n w k <;> rw [e]
  · exact h
  · exact s.raiseFault_readV _ _ _ r

/-- A cleared core keeps the screen, the inputs, the build's `FONTSET` and the host's schedule (R6, R44, R45). -/
theorem onlyChanges_clearCore (s : State) :
    OnlyChanges [.registers, .index, .counter, .stack, .delay, .sound, .tone, .memory, .keyWait, .fault] s
      s.clearCore := by
  simp [onlyChanges_iff, Part.same, State.clearCore]

/-! ### Call and return -/

/-- Everything a return can do (R140, R244; log 11): fault on an empty stack, pop one of 1 to 16 addresses, or stop. -/
theorem exec_ret_cases (s : State) :
    (s.sp.toNat = 0 ∧ exec .ret s = .next (s.raiseFault .stackUnderflow (encode .ret) 0)) ∨
    (∃ k : Fin 16, s.sp.toNat = k.val + 1 ∧
      exec .ret s = .next (State.setPc { s with sp := s.sp - 1 } s.stack[k])) ∨
    (16 < s.sp.toNat ∧ exec .ret s = .fault .noStackEntry) := by
  have arm : exec .ret s = execRet s := rfl
  rw [arm, execRet]
  by_cases h0 : s.sp = 0
  · exact .inl ⟨by simp [h0], if_pos h0⟩
  · rw [if_neg h0]
    have hpos : 0 < s.sp.toNat := by bv_omega
    by_cases h : s.sp.toNat ≤ 16
    · refine .inr (.inl ⟨⟨s.sp.toNat - 1, by omega⟩, by simp; omega, ?_⟩)
      rw [s.pop_eq hpos h]; rfl
    · refine .inr (.inr ⟨by omega, ?_⟩)
      rw [s.pop_none (by omega)]

/-- Everything a call can do (R142, R243; log 11): fault on a full stack, push, or stop. -/
theorem exec_call_cases (nnn : Addr12) (s : State) :
    (s.sp.toNat = 16 ∧ exec (.call nnn) s = .next (s.raiseFault .stackOverflow (encode (.call nnn)) 0)) ∨
    (∃ h : s.sp.toNat < 16, exec (.call nnn) s =
      .next (State.setPc { s with stack := s.stack.set s.sp.toNat s.pc h, sp := s.sp + 1 } (zext16 nnn))) ∨
    (16 < s.sp.toNat ∧ exec (.call nnn) s = .fault .noStackEntry) := by
  have arm : exec (.call nnn) s = execCall nnn s := rfl
  rw [arm, execCall]
  by_cases hfull : s.sp = 16
  · exact .inl ⟨by simp [hfull], if_pos hfull⟩
  · rw [if_neg hfull]
    have hne : s.sp.toNat ≠ 16 := by bv_omega
    by_cases h : s.sp.toNat < 16
    · exact .inr (.inl ⟨h, by rw [s.push_eq _ h]⟩)
    · refine .inr (.inr ⟨by omega, ?_⟩)
      rw [s.push_none _ (by omega)]

end Sys2Proof.Machine
end

section
/-! PROOFS. What an instruction may change (O53, O54), and where one stops (O56). -/

namespace Sys2Proof.Machine

/-- Settles O53: every instruction is one of the shared operations, whose frames are known. -/
theorem instructionChangesOnlyItsParts : Obligations.InstructionChangesOnlyItsParts := by
  intro i s t h
  cases i with
  | cls => cases h; exact onlyChanges_setFb s _
  | ret =>
    obtain ⟨-, e⟩ | ⟨k, -, e⟩ | ⟨-, e⟩ := exec_ret_cases s <;> cases e.symm.trans h
    · exact (onlyChanges_raiseFault s _ _ _).mono (by simp [Instr.touches])
    · exact ((onlyChanges_setStack s _ _).trans (onlyChanges_setPc _ _)).mono (by simp [Instr.touches])
  | call nnn =>
    obtain ⟨-, e⟩ | ⟨hsp, e⟩ | ⟨-, e⟩ := exec_call_cases nnn s <;> cases e.symm.trans h
    · exact (onlyChanges_raiseFault s _ _ _).mono (by simp [Instr.touches])
    · exact ((onlyChanges_setStack s _ _).trans (onlyChanges_setPc _ _)).mono (by simp [Instr.touches])
  | jp | jpV0 => cases h; exact onlyChanges_setPc s _
  | seImm | sneImm | seReg | sneReg => cases h; exact onlyChanges_skipIf s _
  | ldImm | addImm | ldReg | orReg | andReg | xorReg | rnd | ldVxDT => cases h; exact onlyChanges_setV s _ _
  | addReg | subReg | shr | subnReg | shl => cases h; exact onlyChanges_setWithFlag s _ _ _
  | ldI | ldF => cases h; exact onlyChanges_setI s _
  | drw => cases h; exact (onlyChanges_drawSprite s _ _ _).withBlock _ _
  | skp | sknp => cases h; exact onlyChanges_keySkip s _ _ _
  | ldVxK => cases h; exact onlyChanges_enterWait s _
  | ldDTVx => cases h; exact onlyChanges_setDt s _
  | ldSTVx => cases h; exact onlyChanges_setSt s _
  | addI => cases h; exact (onlyChanges_setI s _).trans (onlyChanges_setV _ VF _)
  | ldB => cases h; exact (onlyChanges_writeBlock s _ _).withBlock _ _
  | stRegs => cases h; exact ((onlyChanges_writeBlock s _ _).trans (onlyChanges_setI _ _)).withBlock _ _
  | ldRegs => cases h; exact ((onlyChanges_writeVs s _ _).trans (onlyChanges_setI _ _)).withBlock _ _

/-- Settles O54: an instruction with no register among its parts is O53; the others write as their operation does. -/
theorem instructionWritesOnlyItsRegisters : Obligations.InstructionWritesOnlyItsRegisters := by
  intro i s t r h hw
  by_cases hp : .registers ∉ i.touches
  · exact instructionChangesOnlyItsParts i s t h .registers hp r
  cases i with
  | ldImm | addImm | ldReg | orReg | andReg | xorReg | rnd | ldVxDT =>
    cases h
    exact State.readV_setV_ne _ _ _ _ (by simpa [Instr.writesV] using hw)
  | addReg | subReg | shr | subnReg | shl =>
    cases h
    simp only [Instr.writesV, Bool.or_eq_false_iff, beq_eq_false_iff_ne] at hw
    exact (State.readV_setWithFlag _ _ _ _ _).trans (by simp [hw])
  | addI =>
    cases h
    exact State.readV_setV_ne _ _ _ _ (by simpa [Instr.writesV] using hw)
  | drw =>
    cases h
    refine State.readV_withBlock ?_ _ _
    exact State.readV_setV_ne _ _ _ _ (by simpa [Instr.writesV] using hw)
  | ldRegs x =>
    cases h
    simp only [Instr.writesV, decide_eq_false_iff_not] at hw
    refine State.readV_withBlock ?_ _ _
    refine (State.readV_writeVs s 0 _ r).trans (dif_neg ?_)
    simp only [State.length_readBlock, regCount]
    omega
  | _ => simp [Instr.touches] at hp

/-- Settles O56: a return and a call stop only above 16 addresses, and no other instruction stops. -/
theorem execStopsOnlyWithoutStackEntry : Obligations.ExecStopsOnlyWithoutStackEntry := by
  intro i s
  cases i with
  | ret =>
    obtain ⟨-, e⟩ | ⟨k, -, e⟩ | ⟨hsp, e⟩ := exec_ret_cases s
    · exact .inl ⟨_, e⟩
    · exact .inl ⟨_, e⟩
    · exact .inr ⟨hsp, .inl rfl, e⟩
  | call nnn =>
    obtain ⟨-, e⟩ | ⟨_, e⟩ | ⟨hsp, e⟩ := exec_call_cases nnn s
    · exact .inl ⟨_, e⟩
    · exact .inl ⟨_, e⟩
    · exact .inr ⟨hsp, .inr ⟨nnn, rfl⟩, e⟩
  | _ => exact .inl ⟨_, rfl⟩

end Sys2Proof.Machine
end

section
/-! PROOFS. What a Reset keeps, and the power-on state (O19, O21). -/

namespace Sys2Proof.Machine

/-- A Reset changes no more than clearing the core does: the fault record and memory are the core's. -/
theorem onlyChanges_resetWith (rom : List Byte) (s : State) :
    OnlyChanges [.registers, .index, .counter, .stack, .delay, .sound, .tone, .memory, .keyWait, .fault] s
      (resetWith rom s) := by
  obtain ⟨-, e⟩ | ⟨-, e⟩ := resetWith_cases rom s <;> rw [e]
  · exact ((onlyChanges_clearCore s).trans (onlyChanges_raiseFault _ _ _ _)).mono (by simp)
  · exact ((onlyChanges_clearCore s).trans (onlyChanges_writeBlock _ _ _)).mono (by simp)

/-- Settles O19: the screen after a Reset is the one the host handed over, cleared or not. -/
theorem resetLeavesCollaborators : Obligations.ResetLeavesCollaborators := by
  refine ⟨onlyChanges_resetWith, fun rom clears s => ⟨_, rfl, fun px py _ _ => ?_⟩⟩
  have hfb : (resetWith rom (s.hostClear clears)).fb = (s.hostClear clears).fb :=
    onlyChanges_resetWith rom _ .screen (by simp)
  rw [hfb]
  cases clears <;> simp [State.hostClear]

/-- Settles O21: an empty ROM fits and stores no byte, so the Reset is the cleared core. -/
theorem powerOnIsResetWithEmptyRom : Obligations.PowerOnIsResetWithEmptyRom := by
  refine ⟨rfl, getPixel_off, fun s => ?_⟩
  obtain ⟨hlong, -⟩ | ⟨-, e⟩ := resetWith_cases [] s
  · simp at hlong
  · exact e

end Sys2Proof.Machine
end

section
/-! PROOFS. The invariant of a run (O58, O59): each operation keeps it, so each instruction, each operation of the core
and each step does. -/

namespace Sys2Proof.Machine

variable {s t : State}

/-! ### The invariant, operation by operation -/

/-- The invariant says nothing of the registers `V`, the timers, the key-wait, the inputs, the display, `TONE` and the
host's schedule. -/
theorem State.Inv.withOthers (h : s.Inv) {v : Vector Byte 16} {dt st : Byte} {wait : Bool} {waitReg : RegIx}
    {key : Keys} {rnd : Byte} {fb : Framebuffer} {tone : Bool} {schedule : List HostOp} {draws : Nat} :
    State.Inv { s with v, dt, st, wait, waitReg, key, rnd, fb, tone, schedule, draws } :=
  ⟨h.memory, h.depth, h.returns, h.index, h.counter, h.noError⟩

theorem State.Inv.setI (h : s.Inv) {w : Word} (hw : w.toNat ≤ 0x100F) : (s.setI w).Inv :=
  ⟨h.memory, h.depth, h.returns, hw, h.counter, h.noError⟩

theorem State.Inv.setPc (h : s.Inv) {w : Word} (hw : w.toNat ≤ 0x10FE) : (s.setPc w).Inv :=
  ⟨h.memory, h.depth, h.returns, h.index, hw, h.noError⟩

theorem State.Inv.raiseFault (h : s.Inv) (c : ErrCode) (w : Word) (n : Nat) : (s.raiseFault c w n).Inv :=
  ⟨h.memory, h.depth, h.returns, h.index, h.counter, fun hrun => by simp at hrun⟩

theorem State.Inv.writeBlock (h : s.Inv) {a : Nat} {bs : List Byte} (ha : a + bs.length ≤ 0x1000) :
    (s.writeBlock a bs).Inv :=
  ⟨s.memoryWf_writeBlock a bs ha h.memory, h.depth, h.returns, h.index, h.counter, h.noError⟩

theorem State.Inv.writeVs (h : s.Inv) (k : Nat) (bs : List Byte) : (s.writeVs k bs).Inv := by
  rw [State.writeVs_eq]; exact h.withOthers

/-- A block operation keeps the invariant if its effect does where the block is in range. -/
theorem State.Inv.withBlock (h : s.Inv) {n : Nat} {w : Word} {k : State}
    (hk : n = 0 ∨ s.i.toNat + n - 1 ≤ 0xFFF → k.Inv) : (s.withBlock n w k).Inv := by
  obtain ⟨hr, e⟩ | ⟨-, e⟩ := s.withBlock_cases n w k <;> rw [e]
  · exact hk hr
  · exact h.raiseFault _ _ _

/-- `I` past a block that starts at `I` and is in range is at most `0x1000`. -/
theorem State.Inv.advanceI (h : s.Inv) {x : RegIx} (hr : regCount x = 0 ∨ s.i.toNat + regCount x - 1 ≤ 0xFFF) :
    (s.advanceI x).Inv := by
  refine h.setI ?_
  have hx : regCount x = x.toNat + 1 := rfl
  simp only [BitVec.toNat_add, BitVec.toNat_ofNat]
  omega

/-- A skip from an advanced `PC` stays inside the bound. -/
theorem State.Inv.skipIf (h : s.Inv) (hpc : s.pc.toNat ≤ 0x1000) (c : Bool) : (s.skipIf c).Inv := by
  cases c
  · exact h
  · exact h.setPc (by bv_omega)

theorem State.Inv.keySkip (h : s.Inv) (hpc : s.pc.toNat ≤ 0x1000) (k : Byte) (w : Word) (c : Bool) :
    (s.keySkip k w c).Inv := by
  obtain ⟨-, e⟩ | ⟨-, e⟩ := s.keySkip_cases k w c <;> rw [e]
  · exact h.raiseFault _ _ _
  · exact h.skipIf hpc c

/-- A pop of a stack that holds some address lowers the depth, so the live addresses stay bounded. -/
theorem State.Inv.popped (h : s.Inv) {k : Fin 16} (hk : s.sp.toNat = k.val + 1) :
    State.Inv { s with sp := s.sp - 1 } := by
  have hsp : (s.sp - 1).toNat = k.val := by bv_omega
  refine ⟨h.memory, ?_, fun j hj => h.returns j ?_, h.index, h.counter, h.noError⟩
  · simp only [hsp]; omega
  · simp only [hsp] at hj; omega

/-- A push of a bounded address keeps the live addresses bounded. -/
theorem State.Inv.pushed (h : s.Inv) (hsp : s.sp.toNat < 16) {w : Word} (hw : w.toNat ≤ 0x1000) :
    State.Inv { s with stack := s.stack.set s.sp.toNat w hsp, sp := s.sp + 1 } := by
  have hsp' : (s.sp + 1).toNat = s.sp.toNat + 1 := by bv_omega
  refine ⟨h.memory, by simp only [hsp']; omega, fun j hj => ?_, h.index, h.counter, h.noError⟩
  simp only [hsp'] at hj
  simp only [Fin.getElem_fin, Vector.getElem_set]
  split
  · exact hw
  · exact h.returns j (by omega)

/-! ### Every instruction -/

/-- R147: the sum of an indexed jump is exact, at most `0xFFF + 0xFF`. -/
theorem indexedTarget_toNat (nnn : Addr12) (b : Byte) : (indexedTarget nnn b).toNat = nnn.toNat + b.toNat := by
  simp only [indexedTarget, BitVec.toNat_add, zext16_toNat, BitVec.toNat_setWidth]
  omega

/-- R192: a glyph address is exact, at most five times 255. -/
theorem glyphAddress_toNat (b : Byte) : (glyphAddress b).toNat = b.toNat * 5 := by
  rw [glyphAddress, BitVec.toNat_ofNat, Nat.mod_eq_of_lt (by omega)]

/-- An instruction run with `PC` advanced from a fetch, so at most `0x1000`, keeps the invariant. -/
theorem exec_keeps_inv (h : s.Inv) (hpc : s.pc.toNat ≤ 0x1000) (i : Instr) (he : exec i s = .next t) : t.Inv := by
  cases i with
  | cls | ldVxK | ldDTVx | ldSTVx | ldImm | addImm | ldReg | orReg | andReg | xorReg | rnd | ldVxDT | addReg | subReg
  | shr | subnReg | shl => cases he; exact h.withOthers
  | ret =>
    obtain ⟨-, e⟩ | ⟨k, hk, e⟩ | ⟨-, e⟩ := exec_ret_cases s <;> cases e.symm.trans he
    · exact h.raiseFault _ _ _
    · exact (h.popped hk).setPc (Nat.le_trans (h.returns k (by omega)) (by decide))
  | call nnn =>
    obtain ⟨-, e⟩ | ⟨hsp, e⟩ | ⟨-, e⟩ := exec_call_cases nnn s <;> cases e.symm.trans he
    · exact h.raiseFault _ _ _
    · exact (h.pushed hsp hpc).setPc (by rw [zext16_toNat]; omega)
  | jp nnn => cases he; exact h.setPc (by rw [zext16_toNat]; omega)
  | jpV0 nnn => cases he; exact h.setPc (by rw [indexedTarget_toNat]; omega)
  | seImm | sneImm | seReg | sneReg => cases he; exact h.skipIf hpc _
  | skp | sknp => cases he; exact h.keySkip hpc _ _ _
  | ldI nnn => cases he; exact h.setI (by rw [zext16_toNat]; omega)
  | ldF => cases he; exact h.setI (by rw [glyphAddress_toNat]; omega)
  | addI x =>
    cases he
    exact (h.setI (by rw [BitVec.toNat_ofNat]; omega)).withOthers
  | drw => cases he; exact h.withBlock fun _ => h.withOthers
  | ldB =>
    cases he
    exact h.withBlock fun hr => h.writeBlock (by simp [decimalDigits]; omega)
  | stRegs x =>
    cases he
    refine h.withBlock fun hr => (h.writeBlock ?_).advanceI hr
    rw [s.length_readVs _ (by unfold regCount; omega)]
    unfold regCount at hr ⊢; omega
  | ldRegs x =>
    cases he
    exact h.withBlock fun hr => (h.writeVs _ _).advanceI (by rw [State.writeVs_eq]; exact hr)

/-! ### Every operation of the core -/

theorem cycle_keeps_inv (h : s.Inv) {key : Keys} {rnd : Byte} (hc : cycle key rnd s = .next t) : t.Inv := by
  have hp : (s.present key rnd).Inv := h.withOthers
  obtain ⟨-, e⟩ | ⟨-, -, e⟩ | ⟨-, -, e⟩ | ⟨-, hpc, w, -, ⟨-, -, e⟩ | ⟨i, -, e⟩⟩ := cycle_cases key rnd s
  · cases e.symm.trans hc; exact hp
  · cases e.symm.trans hc
    obtain ⟨-, e⟩ | ⟨k, -, e⟩ := (s.present key rnd).scanKeys_cases <;> rw [e]
    · exact hp
    · exact hp.withOthers
  · cases e.symm.trans hc; exact hp.raiseFault _ _ _
  · cases e.symm.trans hc; exact (hp.setPc (by bv_omega)).raiseFault _ _ _
  · have hpc' : (s.pc + 2).toNat ≤ 0x1000 := by bv_omega
    exact exec_keeps_inv (hp.setPc (by omega)) hpc' i (e.symm.trans hc)

theorem tick_keeps_inv (h : s.Inv) : (tick s).Inv := by
  unfold tick; split <;> exact h.withOthers

/-- A cleared core meets the invariant, whatever the state before. -/
theorem State.clearCore_inv (s : State) : s.clearCore.Inv where
  memory := rfl
  depth := Nat.zero_le _
  returns := fun _ hk => absurd hk (Nat.not_lt_zero _)
  index := Nat.zero_le _
  counter := by simp [State.clearCore, State.reset]
  noError := fun _ => rfl

theorem resetWith_inv (rom : List Byte) (s : State) : (resetWith rom s).Inv := by
  obtain ⟨-, e⟩ | ⟨hlen, e⟩ := resetWith_cases rom s <;> rw [e]
  · exact s.clearCore_inv.raiseFault _ _ _
  · exact s.clearCore_inv.writeBlock (by omega)

theorem perform_keeps_inv (h : s.Inv) (op : HostOp) (hp : perform op s = .next t) : t.Inv := by
  cases op with
  | cycle key rnd => exact cycle_keeps_inv h hp
  | tick => cases hp; exact tick_keeps_inv h
  | reset rom clears => cases hp; exact resetWith_inv rom _

/-- Settles O58: the power-on state is a cleared core. -/
theorem resetHoldsInvariant : Obligations.ResetHoldsInvariant := State.clearCore_inv State.reset

/-- Settles O59: a step takes an operation off the schedule, of which the invariant says nothing, and performs it. -/
theorem everyStepKeepsInvariant : Obligations.EveryStepKeepsInvariant := by
  intro s t h hstep
  have htake : s.takeOp.Inv := by rw [State.takeOp_eq]; exact h.withOthers
  exact perform_keeps_inv htake s.nextOp hstep

end Sys2Proof.Machine
end

section
/-! PROOFS. Memory: its canonical form and `FONTSET` (O60), what a store leaves alone (O55), and that stored code is
fetched (O44). -/

namespace Sys2Proof.Machine

variable {s t u : State}

/-! ### The canonical form, operation by operation -/

/-- From `s` to `t` memory stays canonical (R60, R64) and the build's `FONTSET` is the same (R6). -/
structure KeepsCanonical (s t : State) : Prop where
  memory : s.memoryWf = true → t.memoryWf = true
  font : t.fontset = s.fontset

/-- An operation that leaves the cells and `FONTSET` alone. -/
theorem KeepsCanonical.of_same (hm : t.mem = s.mem) (hf : t.fontset = s.fontset) : KeepsCanonical s t :=
  ⟨fun h => by rw [State.memoryWf, hm, hf]; exact h, hf⟩

theorem KeepsCanonical.trans (h : KeepsCanonical s t) (h' : KeepsCanonical t u) : KeepsCanonical s u :=
  ⟨fun hs => h'.memory (h.memory hs), h'.font.trans h.font⟩

theorem keepsCanonical_raiseFault (s : State) (c : ErrCode) (w : Word) (n : Nat) :
    KeepsCanonical s (s.raiseFault c w n) := .of_same rfl rfl

theorem keepsCanonical_writeBlock (s : State) {a : Nat} {bs : List Byte} (ha : a + bs.length ≤ 0x1000) :
    KeepsCanonical s (s.writeBlock a bs) := ⟨s.memoryWf_writeBlock a bs ha, rfl⟩

theorem keepsCanonical_writeVs (s : State) (k : Nat) (bs : List Byte) : KeepsCanonical s (s.writeVs k bs) := by
  rw [State.writeVs_eq]; exact .of_same rfl rfl

theorem keepsCanonical_advanceI (s : State) (x : RegIx) : KeepsCanonical s (s.advanceI x) := .of_same rfl rfl

theorem keepsCanonical_drawSprite (s : State) (x y : RegIx) (rows : List Byte) :
    KeepsCanonical s (s.drawSprite x y rows) := .of_same rfl rfl

theorem keepsCanonical_skipIf (s : State) (c : Bool) : KeepsCanonical s (s.skipIf c) := by
  rw [State.skipIf_eq]; exact .of_same rfl rfl

theorem keepsCanonical_keySkip (s : State) (k : Byte) (w : Word) (c : Bool) :
    KeepsCanonical s (s.keySkip k w c) := by
  obtain ⟨-, e⟩ | ⟨-, e⟩ := s.keySkip_cases k w c <;> rw [e]
  · exact keepsCanonical_raiseFault s _ _ _
  · exact keepsCanonical_skipIf s c

/-- A block operation keeps memory canonical if its effect does where the block is in range. -/
theorem KeepsCanonical.withBlock {n : Nat} {k : State}
    (hk : n = 0 ∨ s.i.toNat + n - 1 ≤ 0xFFF → KeepsCanonical s k) (w : Word) :
    KeepsCanonical s (s.withBlock n w k) := by
  obtain ⟨hr, e⟩ | ⟨-, e⟩ := s.withBlock_cases n w k <;> rw [e]
  · exact hk hr
  · exact keepsCanonical_raiseFault s _ _ _

/-! ### The registers a block transfer takes (R194) -/

theorem length_readVs_regCount (s : State) (x : RegIx) : (s.readVs (regCount x)).length = regCount x :=
  s.length_readVs _ (by unfold regCount; omega)

/-! ### Every instruction and every operation of the core -/

/-- Only the two stores touch the cells, and they do so in range. -/
theorem exec_keepsCanonical (i : Instr) (he : exec i s = .next t) : KeepsCanonical s t := by
  cases i with
  | cls | jp | jpV0 | ldI | ldF | addI | ldVxK | ldDTVx | ldSTVx | ldImm | addImm | ldReg | orReg | andReg | xorReg
  | rnd | ldVxDT | addReg | subReg | shr | subnReg | shl => cases he; exact .of_same rfl rfl
  | ret =>
    obtain ⟨-, e⟩ | ⟨k, -, e⟩ | ⟨-, e⟩ := exec_ret_cases s <;> cases e.symm.trans he
    · exact keepsCanonical_raiseFault s _ _ _
    · exact .of_same rfl rfl
  | call nnn =>
    obtain ⟨-, e⟩ | ⟨_, e⟩ | ⟨-, e⟩ := exec_call_cases nnn s <;> cases e.symm.trans he
    · exact keepsCanonical_raiseFault s _ _ _
    · exact .of_same rfl rfl
  | seImm | sneImm | seReg | sneReg => cases he; exact keepsCanonical_skipIf s _
  | skp | sknp => cases he; exact keepsCanonical_keySkip s _ _ _
  | drw => cases he; exact .withBlock (fun _ => keepsCanonical_drawSprite s _ _ _) _
  | ldB =>
    cases he
    exact .withBlock (fun hr => keepsCanonical_writeBlock s (by simp [decimalDigits]; omega)) _
  | stRegs x =>
    cases he
    refine .withBlock (fun hr => (keepsCanonical_writeBlock s ?_).trans (keepsCanonical_advanceI _ x)) _
    rw [length_readVs_regCount]
    unfold regCount at hr ⊢; omega
  | ldRegs x =>
    cases he
    exact .withBlock (fun _ => (keepsCanonical_writeVs s _ _).trans (keepsCanonical_advanceI _ x)) _

theorem cycle_keepsCanonical {key : Keys} {rnd : Byte} (hc : cycle key rnd s = .next t) : KeepsCanonical s t := by
  have hp : KeepsCanonical s (s.present key rnd) := .of_same rfl rfl
  obtain ⟨-, e⟩ | ⟨-, -, e⟩ | ⟨-, -, e⟩ | ⟨-, -, w, -, ⟨-, -, e⟩ | ⟨i, -, e⟩⟩ := cycle_cases key rnd s
  · cases e.symm.trans hc; exact hp
  · cases e.symm.trans hc
    obtain ⟨-, e⟩ | ⟨k, -, e⟩ := (s.present key rnd).scanKeys_cases <;> rw [e]
    · exact hp
    · exact .of_same rfl rfl
  · cases e.symm.trans hc; exact .of_same rfl rfl
  · cases e.symm.trans hc; exact .of_same rfl rfl
  · have hadv : KeepsCanonical s ((s.present key rnd).setPc (s.pc + 2)) := .of_same rfl rfl
    exact hadv.trans (exec_keepsCanonical i (e.symm.trans hc))

theorem tick_keepsCanonical (s : State) : KeepsCanonical s (tick s) := by
  unfold tick; split <;> exact .of_same rfl rfl

/-- A Reset rebuilds memory from the build's `FONTSET` and a ROM that fits (R69). -/
theorem resetWith_keepsCanonical (rom : List Byte) (s : State) : KeepsCanonical s (resetWith rom s) where
  memory := fun _ => (resetWith_inv rom s).memory
  font := onlyChanges_resetWith rom s .font (by simp)

theorem perform_keepsCanonical (op : HostOp) (hp : perform op s = .next t) : KeepsCanonical s t := by
  cases op with
  | cycle key rnd => exact cycle_keepsCanonical hp
  | tick => cases hp; exact tick_keepsCanonical s
  | reset rom clears =>
    cases hp
    have hclear : KeepsCanonical s (s.hostClear clears) := by cases clears <;> exact .of_same rfl rfl
    exact hclear.trans (resetWith_keepsCanonical rom _)

/-- Settles O60: taking an operation off the schedule leaves memory alone, and every operation keeps it canonical. -/
theorem everyStepKeepsMemoryCanonical : Obligations.EveryStepKeepsMemoryCanonical := by
  intro s t hwf hstep
  have htake : KeepsCanonical s s.takeOp := by rw [State.takeOp_eq]; exact .of_same rfl rfl
  obtain ⟨hmem, hfont⟩ := htake.trans (perform_keepsCanonical s.nextOp hstep)
  exact ⟨hmem hwf, hfont⟩

/-! ### What a store leaves alone (R67) -/

/-- Storing a block changes no byte outside it. -/
theorem sameMemoryOutside_writeBlock (s : State) (a : Nat) (bs : List Byte) :
    SameMemoryOutside a bs.length s (s.writeBlock a bs) :=
  fun b hb => (s.readByte_writeBlock a b bs).trans (dif_neg (by omega))

/-- A block operation changes what its effect changes, and nothing where it takes the fault. -/
theorem SameMemoryOutside.withBlock {a n : Nat} {k : State} (h : SameMemoryOutside a n s k) (m : Nat) (w : Word) :
    SameMemoryOutside a n s (s.withBlock m w k) := by
  obtain ⟨-, e⟩ | ⟨-, e⟩ := s.withBlock_cases m w k <;> rw [e]
  · exact h
  · exact fun b _ => s.raiseFault_readByte _ _ _ b

/-- Settles O55: the two stores write three digits and `x + 1` registers at `I`. -/
theorem storesChangeOnlyTheirBlock : Obligations.StoresChangeOnlyTheirBlock := by
  constructor
  · intro x s t h
    cases h
    exact (sameMemoryOutside_writeBlock s _ (decimalDigits (s.readV x))).withBlock _ _
  · intro x s t h
    cases h
    have hblock := sameMemoryOutside_writeBlock s s.i.toNat (s.readVs (regCount x))
    rw [length_readVs_regCount] at hblock
    exact SameMemoryOutside.withBlock (k := (s.writeBlock _ _).advanceI x) hblock _ _

/-! ### Stored code is fetched (R73) -/

/-- `Fx55` with its block in range stores the registers and advances `I` (R194). -/
theorem exec_stRegs_inRange (x : RegIx) (h : s.i.toNat + x.toNat ≤ 0xFFF) :
    exec (.stRegs x) s = .next ((s.writeBlock s.i.toNat (s.readVs (regCount x))).advanceI x) :=
  congrArg _ (s.withBlock_inRange _ _ _ (.inr (by unfold regCount; omega)))

/-- `Fx55` with its block in range puts register `r`, one of `V[0]` to `V[x]`, at `I + r`. -/
theorem readByte_exec_stRegs {x r : RegIx} (h : s.i.toNat + x.toNat ≤ 0xFFF) (hr : r.toNat ≤ x.toNat)
    (he : exec (.stRegs x) s = .next t) : t.readByte (s.i.toNat + r.toNat) = s.readV r := by
  cases (exec_stRegs_inRange x h).symm.trans he
  have hin : s.i.toNat ≤ s.i.toNat + r.toNat ∧ s.i.toNat + r.toNat - s.i.toNat < (s.readVs (regCount x)).length := by
    rw [length_readVs_regCount]; unfold regCount; omega
  refine (s.readByte_writeBlock _ _ _).trans ((dif_pos hin).trans ?_)
  simp only [Nat.add_sub_cancel_left]
  exact s.getElem_readVs _ _ _ r.isLt

/-- Settles O44: the fetch reads the two bytes at which `Fx55` put the two registers. -/
theorem storedCodeIsFetched : Obligations.StoredCodeIsFetched := by
  intro x r r' s t u hi hr hr' he hmem hpc
  have hnext : s.i.toNat + r.toNat + 1 = s.i.toNat + r'.toNat := by omega
  rw [u.fetchWord_eq (by omega), hpc, hnext, hmem, hmem, readByte_exec_stRegs hi (by omega) he,
    readByte_exec_stRegs hi hr' he]

end Sys2Proof.Machine
end

section
/-! SUPPORT. A word put together again from its fields, and the row of the opcode map (R95) an instruction stands for. -/

namespace Sys2Proof

/-! ### A word from its fields, some of them known (R92) -/

section
variable {w : Word} {op n : Nibble} {nn : Byte}

theorem packNNN_of_fields (hop : fieldOp w = op) : packNNN op (fieldNNN w) = w := by
  rw [← hop, packNNN_fields]

theorem packXNN_of_fields (hop : fieldOp w = op) (hnn : fieldNN w = nn) : packXNN op (fieldX w) nn = w := by
  rw [← hop, ← hnn, packXNN_fields]

theorem packXYN_of_fields (hop : fieldOp w = op) (hn : fieldN w = n) :
    packXYN op (fieldX w) (fieldY w) n = w := by
  rw [← hop, ← hn, packXYN_fields]

/-! ### What a row says of the fields of a word it selects -/

/-- A row that fixes the first nibble: formats NNN, XNN and XYN. -/
theorem fieldOp_of_selects {m : String} (h : OpcodeRow.selects ⟨m, packNNN 0xF 0x000, packNNN op 0x000⟩ w = true) :
    fieldOp w = op := by
  have hand : w &&& packNNN 0xF 0x000 = packNNN op 0x000 := eq_of_beq h
  rw [← packNNN_fields w, packNNN_and] at hand
  simpa [nibble_and_ones] using congrArg fieldOp hand

/-- A row that fixes the first and last nibbles: format XYS. -/
theorem packXYN_of_selects {m : String}
    (h : OpcodeRow.selects ⟨m, packXYN 0xF 0x0 0x0 0xF, packXYN op 0x0 0x0 n⟩ w = true) :
    packXYN op (fieldX w) (fieldY w) n = w := by
  have hand : w &&& packXYN 0xF 0x0 0x0 0xF = packXYN op 0x0 0x0 n := eq_of_beq h
  rw [← packXYN_fields w, packXYN_and] at hand
  exact packXYN_of_fields (by simpa [nibble_and_ones] using congrArg fieldOp hand)
    (by simpa [nibble_and_ones] using congrArg fieldN hand)

/-- A row that fixes the first nibble and the low byte: format XSS. -/
theorem packXNN_of_selects {m : String}
    (h : OpcodeRow.selects ⟨m, packXNN 0xF 0x0 0xFF, packXNN op 0x0 nn⟩ w = true) :
    packXNN op (fieldX w) nn = w := by
  have hand : w &&& packXNN 0xF 0x0 0xFF = packXNN op 0x0 nn := eq_of_beq h
  rw [← packXNN_fields w, packXNN_and] at hand
  exact packXNN_of_fields (by simpa [nibble_and_ones] using congrArg fieldOp hand)
    (by simpa [byte_and_ones] using congrArg fieldNN hand)

/-- A row that fixes the whole word: format FIXED. -/
theorem eq_of_selects {m : String} {p : Word} (h : OpcodeRow.selects ⟨m, 0xFFFF, p⟩ w = true) : p = w := by
  have hand : w &&& 0xFFFF#16 = p := eq_of_beq h
  rw [← hand]; exact BitVec.and_allOnes

end

/-! ### Rows and instructions -/

open Laws.EncodingRow (row row_mem)

theorem row_selects_encode (i : Instr) : (row i).selects (encode i) = true := by
  cases i with
  | cls | ret => rfl
  | jp | call | ldI | jpV0 => exact selects_packNNN _ _ _
  | seImm | sneImm | ldImm | addImm | rnd => exact selects_packXNN _ _ _ _
  | drw => exact selects_packXYN _ _ _ _ _
  | seReg | ldReg | orReg | andReg | xorReg | addReg | subReg | shr | subnReg | shl | sneReg =>
    exact selects_packXYS _ _ _ _ _
  | skp | sknp | ldVxDT | ldVxK | ldDTVx | ldSTVx | addI | ldF | ldB | stRegs | ldRegs =>
    exact selects_packXSS _ _ _ _

/-- Every word that the row selects is the encoding of an instruction that stands for the row. -/
def OpcodeRow.SelectsEncodings (r : OpcodeRow) : Prop := ∀ w, r.selects w = true → ∃ i, row i = r ∧ encode i = w

theorem selectsEncodings_plain : ∀ r ∈ opcodeMapPlain, r.SelectsEncodings := by
  simp only [opcodeMapPlain, List.forall_mem_cons]
  exact ⟨fun _ h => ⟨.cls, rfl, eq_of_selects h⟩,
    fun _ h => ⟨.ret, rfl, eq_of_selects h⟩,
    fun _ h => ⟨.jp _, rfl, packNNN_of_fields (fieldOp_of_selects h)⟩,
    fun _ h => ⟨.call _, rfl, packNNN_of_fields (fieldOp_of_selects h)⟩,
    fun _ h => ⟨.seImm _ _, rfl, packXNN_of_fields (fieldOp_of_selects h) rfl⟩,
    fun _ h => ⟨.sneImm _ _, rfl, packXNN_of_fields (fieldOp_of_selects h) rfl⟩,
    fun _ h => ⟨.ldImm _ _, rfl, packXNN_of_fields (fieldOp_of_selects h) rfl⟩,
    fun _ h => ⟨.addImm _ _, rfl, packXNN_of_fields (fieldOp_of_selects h) rfl⟩,
    fun _ h => ⟨.ldI _, rfl, packNNN_of_fields (fieldOp_of_selects h)⟩,
    fun _ h => ⟨.jpV0 _, rfl, packNNN_of_fields (fieldOp_of_selects h)⟩,
    fun _ h => ⟨.rnd _ _, rfl, packXNN_of_fields (fieldOp_of_selects h) rfl⟩,
    fun _ h => ⟨.drw _ _ _, rfl, packXYN_of_fields (fieldOp_of_selects h) rfl⟩,
    List.forall_mem_nil _⟩

theorem selectsEncodings_XYS : ∀ r ∈ opcodeMapXYS, r.SelectsEncodings := by
  simp only [opcodeMapXYS, List.forall_mem_cons]
  exact ⟨fun _ h => ⟨.seReg _ _, rfl, packXYN_of_selects h⟩,
    fun _ h => ⟨.ldReg _ _, rfl, packXYN_of_selects h⟩,
    fun _ h => ⟨.orReg _ _, rfl, packXYN_of_selects h⟩,
    fun _ h => ⟨.andReg _ _, rfl, packXYN_of_selects h⟩,
    fun _ h => ⟨.xorReg _ _, rfl, packXYN_of_selects h⟩,
    fun _ h => ⟨.addReg _ _, rfl, packXYN_of_selects h⟩,
    fun _ h => ⟨.subReg _ _, rfl, packXYN_of_selects h⟩,
    fun _ h => ⟨.shr _ _, rfl, packXYN_of_selects h⟩,
    fun _ h => ⟨.subnReg _ _, rfl, packXYN_of_selects h⟩,
    fun _ h => ⟨.shl _ _, rfl, packXYN_of_selects h⟩,
    fun _ h => ⟨.sneReg _ _, rfl, packXYN_of_selects h⟩,
    List.forall_mem_nil _⟩

theorem selectsEncodings_XSS : ∀ r ∈ opcodeMapXSS, r.SelectsEncodings := by
  simp only [opcodeMapXSS, List.forall_mem_cons]
  exact ⟨fun _ h => ⟨.skp _, rfl, packXNN_of_selects h⟩,
    fun _ h => ⟨.sknp _, rfl, packXNN_of_selects h⟩,
    fun _ h => ⟨.ldVxDT _, rfl, packXNN_of_selects h⟩,
    fun _ h => ⟨.ldVxK _, rfl, packXNN_of_selects h⟩,
    fun _ h => ⟨.ldDTVx _, rfl, packXNN_of_selects h⟩,
    fun _ h => ⟨.ldSTVx _, rfl, packXNN_of_selects h⟩,
    fun _ h => ⟨.addI _, rfl, packXNN_of_selects h⟩,
    fun _ h => ⟨.ldF _, rfl, packXNN_of_selects h⟩,
    fun _ h => ⟨.ldB _, rfl, packXNN_of_selects h⟩,
    fun _ h => ⟨.stRegs _, rfl, packXNN_of_selects h⟩,
    fun _ h => ⟨.ldRegs _, rfl, packXNN_of_selects h⟩,
    List.forall_mem_nil _⟩

theorem selectsEncodings_of_mem {r : OpcodeRow} (hr : r ∈ opcodeMap) : r.SelectsEncodings := by
  rw [opcodeMap, List.mem_append, List.mem_append] at hr
  obtain (hr | hr) | hr := hr
  · exact selectsEncodings_plain r hr
  · exact selectsEncodings_XYS r hr
  · exact selectsEncodings_XSS r hr

end Sys2Proof
end

section
/-! PROOFS. The decoder and the encoder (O1, O2, O5), the table of illegal words (O3) and the opcode map (O4). -/

namespace Sys2Proof

/-! ### Decoding undoes encoding -/

@[simp] theorem decode_encode (i : Instr) : decode (encode i) = .ok i := by
  cases i with
  | cls | ret => rfl
  | jp | call | ldI | jpV0 | seImm | sneImm | ldImm | addImm | rnd | seReg | sneReg | drw => simp [encode, decode]
  | ldReg | orReg | andReg | xorReg | addReg | subReg | shr | subnReg | shl => simp [encode, decode, decodeAlu]
  | skp | sknp => simp [encode, decode, decodeKey]
  | ldVxDT | ldVxK | ldDTVx | ldSTVx | addI | ldF | ldB | stRegs | ldRegs => simp [encode, decode, decodeMisc]

/-- Settles O1: the bytes of a word are put together to the word, and decoding undoes encoding on the word. -/
theorem decodeOfEncode : Obligations.DecodeOfEncode := by
  intro i rest _
  refine ⟨decode_encode i, ?_⟩
  rw [decodeBytes_bytesOfWord, decode_encode]
  rfl

/-! ### Encoding undoes decoding, family by family (R94) -/

section
variable {w : Word} {i : Instr}

theorem encode_of_decodeSystem (hop : fieldOp w = 0x0) (h : decodeSystem w = .ok i) : encode i = w := by
  rw [← packNNN_fields w, hop]
  unfold decodeSystem at h
  split at h <;> cases h
  next hnnn => rw [hnnn]; rfl
  next hnnn => rw [hnnn]; rfl

theorem encode_of_decodeAlu (hop : fieldOp w = 0x8) (h : decodeAlu w = .ok i) : encode i = w := by
  unfold decodeAlu at h
  split at h <;> cases h <;> exact packXYN_of_fields hop ‹_›

theorem encode_of_decodeKey (hop : fieldOp w = 0xE) (h : decodeKey w = .ok i) : encode i = w := by
  unfold decodeKey at h
  split at h <;> cases h <;> exact packXNN_of_fields hop ‹_›

theorem encode_of_decodeMisc (hop : fieldOp w = 0xF) (h : decodeMisc w = .ok i) : encode i = w := by
  unfold decodeMisc at h
  split at h <;> cases h <;> exact packXNN_of_fields hop ‹_›

theorem encode_of_decode (h : decode w = .ok i) : encode i = w := by
  obtain hop | hop | hop | hop | hop | hop | hop | hop | hop | hop | hop | hop | hop | hop | hop | hop :=
    nibble_cases (fieldOp w) <;> simp only [decode, hop] at h
  · exact encode_of_decodeSystem hop h
  · cases h; exact packNNN_of_fields hop
  · cases h; exact packNNN_of_fields hop
  · cases h; exact packXNN_of_fields hop rfl
  · cases h; exact packXNN_of_fields hop rfl
  · split at h <;> cases h
    exact packXYN_of_fields hop ‹_›
  · cases h; exact packXNN_of_fields hop rfl
  · cases h; exact packXNN_of_fields hop rfl
  · exact encode_of_decodeAlu hop h
  · split at h <;> cases h
    exact packXYN_of_fields hop ‹_›
  · cases h; exact packNNN_of_fields hop
  · cases h; exact packNNN_of_fields hop
  · cases h; exact packXNN_of_fields hop rfl
  · cases h; exact packXYN_of_fields hop rfl
  · exact encode_of_decodeKey hop h
  · exact encode_of_decodeMisc hop h

/-- The decoder and the encoder are inverse to each other on the legal words. -/
theorem decode_eq_ok_iff : decode w = .ok i ↔ encode i = w :=
  ⟨encode_of_decode, fun h => h ▸ decode_encode i⟩

end

/-- Settles O2: the fields of a word, those a family fixes among them, make up the whole word. -/
theorem encodeOfDecode : Obligations.EncodeOfDecode := fun _ _ => encode_of_decode

/-- Settles O5: each word is the encoding of its instruction. -/
theorem specWordsDecode : Obligations.SpecWordsDecode := by
  unfold Obligations.SpecWordsDecode
  simp only [decode_eq_ok_iff]
  decide

/-! ### The table of illegal words (R96), row by row

The decoder compares a field with bit vectors and the table the same digits of the word with numbers, so each proof puts
the field in the table's place and follows the decoder's arms. -/

section
variable (w : Word)

theorem decodeSystem_rejects_iff : (∃ why, decodeSystem w = .error why) ↔ wellFormedSystem w.toNat = false := by
  rw [wellFormedSystem, ← fieldNNN_toNat]
  unfold decodeSystem
  split <;> simp_all [← BitVec.toNat_inj]

theorem decodeAlu_rejects_iff : (∃ why, decodeAlu w = .error why) ↔ wellFormedAlu w.toNat = false := by
  rw [wellFormedAlu, ← fieldN_toNat]
  unfold decodeAlu
  obtain h | h | h | h | h | h | h | h | h | h | h | h | h | h | h | h := nibble_cases (fieldN w) <;> simp [h]

theorem decodeKey_rejects_iff : (∃ why, decodeKey w = .error why) ↔ wellFormedKey w.toNat = false := by
  rw [wellFormedKey, ← fieldNN_toNat]
  unfold decodeKey
  split <;> simp_all [← BitVec.toNat_inj]

theorem decodeMisc_rejects_iff : (∃ why, decodeMisc w = .error why) ↔ wellFormedMisc w.toNat = false := by
  rw [wellFormedMisc, ← fieldNN_toNat]
  unfold decodeMisc
  split <;> simp_all [← BitVec.toNat_inj]

/-- The test on the low nibble in families `5` and `9`. -/
theorem skip_rejects_iff (i : Instr) (reject : DecodeReject) :
    (∃ why, (if fieldN w = 0#4 then .ok i else .error reject) = Except.error why) ↔
      wellFormedSkip w.toNat = false := by
  rw [wellFormedSkip, ← fieldN_toNat]
  by_cases h : (fieldN w).toNat = 0
  · simp [h, ← BitVec.toNat_inj]
  · simp [h, ← BitVec.toNat_inj]

end

/-- Settles O3: the two agree family by family; ten families have no illegal word. -/
theorem decoderRejectsExactlyIllegalWords : Obligations.DecoderRejectsExactlyIllegalWords := by
  intro w
  unfold wordWellFormed
  have hdiv : w.toNat / 0x1000 = (fieldOp w).toNat := (fieldOp_toNat w).symm
  obtain hop | hop | hop | hop | hop | hop | hop | hop | hop | hop | hop | hop | hop | hop | hop | hop :=
    nibble_cases (fieldOp w) <;> simp only [decode, hdiv, hop]
  · exact decodeSystem_rejects_iff w
  · simp
  · simp
  · simp
  · simp
  · exact skip_rejects_iff w _ _
  · simp
  · simp
  · exact decodeAlu_rejects_iff w
  · exact skip_rejects_iff w _ _
  · simp
  · simp
  · simp
  · simp
  · exact decodeKey_rejects_iff w
  · exact decodeMisc_rejects_iff w

/-! ### The opcode map -/

open Laws.EncodingRow (row row_mem)

/-- Settles O4: a row selects the encodings of the instructions that stand for it, and an encoding decodes to one
instruction only. -/
theorem opcodeMapIsDisjointAndComplete : Obligations.OpcodeMapIsDisjointAndComplete := by
  constructor
  · intro w r r' hr hr' h h'
    obtain ⟨i, rfl, rfl⟩ := selectsEncodings_of_mem hr w h
    obtain ⟨i', rfl, he⟩ := selectsEncodings_of_mem hr' _ h'
    have hi : i = i' := by simpa using decode_eq_ok_iff.mpr he
    rw [hi]
  · intro w
    constructor
    · rintro ⟨r, hr, h⟩
      obtain ⟨i, -, he⟩ := selectsEncodings_of_mem hr w h
      exact ⟨i, decode_eq_ok_iff.mpr he⟩
    · rintro ⟨i, hi⟩
      rw [← encode_of_decode hi]
      exact ⟨row i, row_mem i, row_selects_encode i⟩

end Sys2Proof
end

section
/-! SUPPORT. What a Cycle does in each of its cases (R129), and how an instruction takes a fault (R126). -/

namespace Sys2Proof.Machine

variable {s t : State} {key : Keys} {rnd : Byte}

/-! ### Frames of the ports and of the key wait -/

section
variable (s)

theorem OnlyChanges.refl (ps : List Part) : OnlyChanges ps s s := by
  simp [onlyChanges_iff, Part.same]

theorem onlyChanges_present (key : Keys) (rnd : Byte) : OnlyChanges [.inputs, .tone] s (s.present key rnd) := by
  simp [onlyChanges_iff, Part.same]

theorem onlyChanges_setTone (b : Bool) : OnlyChanges [.tone] s { s with tone := b } := by
  simp [onlyChanges_iff, Part.same, State.readV, State.readByte]

theorem onlyChanges_leaveWait : OnlyChanges [.keyWait] s s.leaveWait := by
  simp [onlyChanges_iff, Part.same]

theorem onlyChanges_scanKeys : OnlyChanges [.registers, .keyWait] s s.scanKeys := by
  obtain ⟨-, e⟩ | ⟨k, -, e⟩ := s.scanKeys_cases <;> rw [e]
  · exact .refl s _
  · exact (onlyChanges_setV s _ _).trans (onlyChanges_leaveWait _)

end

/-! ### The key scan (R122) -/

/-- The scan finds a held key below which no key is held. -/
theorem lowestKey_eq_some {k : Nat} (hk : k < 16) (held : keyHeld key k = true)
    (lowest : ∀ j, j < k → keyHeld key j = false) : lowestKey key = some k := by
  rw [lowestKey, List.find?_range_eq_some]
  exact ⟨held, List.mem_range.2 hk, fun j hj => by simp [lowest j hj]⟩

theorem State.scanKeys_of_none (h : lowestKey s.key = none) : s.scanKeys = s := by
  rw [State.scanKeys, h]

theorem State.scanKeys_of_some {k : Nat} (h : lowestKey s.key = some k) :
    s.scanKeys = (s.setV s.waitReg (BitVec.ofNat 8 k)).leaveWait := by
  rw [State.scanKeys, h]

/-! ### A Cycle, and a Tick on a halted core, case by case -/

@[simp] theorem State.present_fetchWord (s : State) (key : Keys) (rnd : Byte) :
    (s.present key rnd).fetchWord = s.fetchWord := rfl

theorem cycle_of_halted (h : s.halt = true) : cycle key rnd s = .next (s.present key rnd) := by
  simp [cycle, h]

theorem cycle_of_waiting (hhalt : s.halt = false) (hwait : s.wait = true) :
    cycle key rnd s = .next (s.present key rnd).scanKeys := by
  simp [cycle, hhalt, hwait]

theorem cycle_of_running (h : s.running) : cycle key rnd s = (s.present key rnd).runInstruction := by
  simp [cycle, h]

theorem cycle_of_fetchFault (h : s.running) (hpc : 0xFFE < s.pc.toNat) :
    cycle key rnd s = .next (s.present key rnd).fetchFault := by
  rw [cycle_of_running h, State.runInstruction, State.present_fetchWord, s.fetchWord_none hpc]

theorem cycle_of_decode {w : Word} {i : Instr} (h : s.running) (hw : s.fetchWord = some w) (hi : decode w = .ok i) :
    cycle key rnd s = exec i ((s.present key rnd).setPc (s.pc + 2)) := by
  rw [cycle_of_running h, State.runInstruction, State.present_fetchWord, hw]
  simp only [State.dispatch, hi, State.advance_eq, State.present_pc]

/-- A Cycle that answers has executed the decoded instruction, or has at most scanned the keys, advanced `PC` and taken
a fault. -/
theorem cycle_next_cases (hc : cycle key rnd s = .next t) :
    OnlyChanges [.registers, .keyWait, .counter, .fault] (s.present key rnd) t ∨
    (s.running ∧ ∃ w i, s.fetchWord = some w ∧ decode w = .ok i ∧
      exec i ((s.present key rnd).setPc (s.pc + 2)) = .next t) := by
  obtain ⟨-, e⟩ | ⟨-, -, e⟩ | ⟨-, -, e⟩ | ⟨hrun, -, w, hw, ⟨-, -, e⟩ | ⟨i, hi, e⟩⟩ := cycle_cases key rnd s
  · cases e.symm.trans hc; exact .inl (.refl _ _)
  · cases e.symm.trans hc; exact .inl ((onlyChanges_scanKeys _).mono (by simp))
  · cases e.symm.trans hc; exact .inl ((onlyChanges_raiseFault _ _ _ _).mono (by simp))
  · cases e.symm.trans hc
    exact .inl (((onlyChanges_setPc _ _).trans (onlyChanges_raiseFault _ _ _ _)).mono (by simp))
  · exact .inr ⟨hrun, w, i, hw, hi, e.symm.trans hc⟩

/-- A Cycle answers a next state where the stack holds at most 16 addresses (R27; log 11). -/
theorem cycle_answers (key : Keys) (rnd : Byte) (h : s.sp.toNat ≤ 16) : ∃ t, cycle key rnd s = .next t := by
  obtain ⟨-, e⟩ | ⟨-, -, e⟩ | ⟨-, -, e⟩ | ⟨-, -, w, -, ⟨-, -, e⟩ | ⟨i, -, e⟩⟩ := cycle_cases key rnd s
  · exact ⟨_, e⟩
  · exact ⟨_, e⟩
  · exact ⟨_, e⟩
  · exact ⟨_, e⟩
  · rw [e]
    obtain hnext | ⟨hsp, -⟩ := execStopsOnlyWithoutStackEntry i ((s.present key rnd).setPc (s.pc + 2))
    · exact hnext
    · exact absurd hsp (Nat.not_lt.2 h)

theorem tick_of_halted (h : s.halt = true) : tick s = { s with tone := false } := if_pos h

/-! ### A step with the schedule used up (log 1) -/

theorem State.nextOp_nil (h : s.schedule = []) : s.nextOp = Config.hostOp s.draws := by
  simp [State.nextOp, h]

theorem State.takeOp_nil (h : s.schedule = []) : s.takeOp = { s with draws := s.draws + 1 } := by
  simp [State.takeOp, h]

/-! ### The timers and `TONE` under one instruction (R128) -/

section
variable {i : Instr}

theorem exec_dt_cases (he : exec i s = .next t) : t.dt = s.dt ∨ ∃ x, i = .ldDTVx x ∧ t.dt = s.readV x := by
  by_cases hp : .delay ∉ i.touches
  · exact .inl (instructionChangesOnlyItsParts i s t he .delay hp)
  cases i with
  | ldDTVx x => cases he; exact .inr ⟨x, rfl, rfl⟩
  | _ => simp [Instr.touches] at hp

theorem exec_st_cases (he : exec i s = .next t) : t.st = s.st ∨ ∃ x, i = .ldSTVx x ∧ t.st = s.readV x := by
  by_cases hp : .sound ∉ i.touches
  · exact .inl (instructionChangesOnlyItsParts i s t he .sound hp)
  cases i with
  | ldSTVx x => cases he; exact .inr ⟨x, rfl, rfl⟩
  | _ => simp [Instr.touches] at hp

theorem exec_tone (he : exec i s = .next t) : t.tone = s.tone :=
  instructionChangesOnlyItsParts i s t he .tone (by cases i <;> simp [Instr.touches])

/-! ### The faults of an instruction (R126, R242 to R245) -/

/-- The halt state is kept from `s` to `t`, or `t` is `s` with a fault taken that names the word `w`. -/
def KeptOrFaulted (w : Word) (s t : State) : Prop :=
  Part.fault.same s t ∨ ∃ code ∈ [ErrCode.addressRange, .stackOverflow, .stackUnderflow, .keyIndexRange],
    ∃ info, t = s.raiseFault code w info

theorem keptOrFaulted_withBlock {k : State} (h : Part.fault.same s k) (n : Nat) (w : Word) :
    KeptOrFaulted w s (s.withBlock n w k) := by
  obtain ⟨-, e⟩ | ⟨-, e⟩ := s.withBlock_cases n w k <;> rw [e]
  · exact .inl h
  · exact .inr ⟨.addressRange, by simp, _, rfl⟩

theorem keptOrFaulted_keySkip (s : State) (k : Byte) (w : Word) (c : Bool) :
    KeptOrFaulted w s (s.keySkip k w c) := by
  obtain ⟨-, e⟩ | ⟨-, e⟩ := s.keySkip_cases k w c <;> rw [e]
  · exact .inr ⟨.keyIndexRange, by simp, _, rfl⟩
  · exact .inl (onlyChanges_skipIf s c .fault (by simp))

/-- An instruction keeps the halt state, or does nothing but take a fault that names its own word. -/
theorem exec_keptOrFaulted (he : exec i s = .next t) : KeptOrFaulted (encode i) s t := by
  by_cases hp : .fault ∉ i.touches
  · exact .inl (instructionChangesOnlyItsParts i s t he .fault hp)
  cases i with
  | ret =>
    obtain ⟨-, e⟩ | ⟨k, -, e⟩ | ⟨-, e⟩ := exec_ret_cases s <;> cases e.symm.trans he
    · exact .inr ⟨.stackUnderflow, by simp, 0, rfl⟩
    · exact .inl ⟨rfl, rfl⟩
  | call nnn =>
    obtain ⟨-, e⟩ | ⟨_, e⟩ | ⟨-, e⟩ := exec_call_cases nnn s <;> cases e.symm.trans he
    · exact .inr ⟨.stackOverflow, by simp, 0, rfl⟩
    · exact .inl ⟨rfl, rfl⟩
  | drw | ldB | stRegs =>
    cases he
    refine keptOrFaulted_withBlock ?_ _ _
    exact ⟨rfl, rfl⟩
  | ldRegs =>
    cases he
    refine keptOrFaulted_withBlock ?_ _ _
    exact (onlyChanges_writeVs s _ _).trans (onlyChanges_setI _ _) .fault (by simp)
  | skp | sknp => cases he; exact keptOrFaulted_keySkip s _ _ _
  | _ => simp [Instr.touches] at hp

end

end Sys2Proof.Machine
end

section
/-! PROOFS. Steps and Cycles (O6 to O11), what a Cycle keeps (O15), precise faults (O16), and progress (O57). -/

namespace Sys2Proof.Machine

/-- Settles O9: with no key held the scan changes nothing, else it finds the lowest key. -/
theorem keyWaitTakesLowestKey : Obligations.KeyWaitTakesLowestKey := by
  refine ⟨fun s rnd hhalt hwait => ?_, fun s key rnd k hhalt hwait hk held lowest => ?_⟩
  · have hscan : (s.present 0 rnd).scanKeys = s.present 0 rnd :=
      State.scanKeys_of_none ((lowestKey_none 0).2 rfl)
    rw [cycle_of_waiting hhalt hwait, hscan]
    exact ⟨_, rfl, rfl, rfl, rfl, onlyChanges_present s 0 rnd⟩
  · have hscan : (s.present key rnd).scanKeys = _ := State.scanKeys_of_some (lowestKey_eq_some hk held lowest)
    rw [cycle_of_waiting hhalt hwait, hscan]
    refine ⟨_, rfl, rfl, rfl, rfl, rfl, rfl, fun r => ?_, ?_⟩
    · rw [State.leaveWait_readV, State.readV_setV, State.present_waitReg]
      split
      · simp only [BitVec.toNat_ofNat]; omega
      · rfl
    · exact (((onlyChanges_present s key rnd).trans (onlyChanges_setV _ _ _)).trans
        (onlyChanges_leaveWait _)).mono (by simp)

/-- Settles O10: the Cycle executes the jump, which sets `PC` to where it stood. -/
theorem endedProgramStaysEnded : Obligations.EndedProgramStaysEnded := by
  rintro s nnn key rnd ⟨hpc, hrun, hfetch⟩
  have hexec := cycle_of_decode (key := key) (rnd := rnd) hrun hfetch (decode_encode (.jp nnn))
  have hback : exec (.jp nnn) ((s.present key rnd).setPc (s.pc + 2)) = .next (s.present key rnd) := by
    have hjump : exec (.jp nnn) ((s.present key rnd).setPc (s.pc + 2)) =
      .next ((s.present key rnd).setPc (zext16 nnn)) := rfl
    rw [hjump, ← hpc]; rfl
  exact ⟨s.present key rnd, hexec.trans hback, ⟨hpc, hrun, hfetch⟩, rfl, onlyChanges_present s key rnd⟩

/-- Settles O15: only an executed instruction can reach the timers, and of those only `Fx15` and `Fx18` do. -/
theorem cycleLeavesTimersAlone : Obligations.CycleLeavesTimersAlone := by
  intro key rnd s t hc
  obtain hframe | ⟨hrun, w, i, hw, hi, he⟩ := cycle_next_cases hc
  · exact ⟨hframe .tone (by simp), .inl (hframe .delay (by simp)), .inl (hframe .sound (by simp))⟩
  refine ⟨exec_tone he, (exec_dt_cases he).imp id ?_, (exec_st_cases he).imp id ?_⟩
  · rintro ⟨x, rfl, hx⟩; exact ⟨hrun, w, x, hw, hi, hx⟩
  · rintro ⟨x, rfl, hx⟩; exact ⟨hrun, w, x, hw, hi, hx⟩

/-- Settles O16: an instruction that has not kept the halt state has only taken its fault. -/
theorem faultsArePrecise : Obligations.FaultsArePrecise := by
  intro i s t hs he ht
  obtain ⟨hkept, -⟩ | ⟨code, hcode, info, rfl⟩ := exec_keptOrFaulted he
  · simp [hkept, hs] at ht
  · exact ⟨rfl, rfl, by rintro rfl; simp at hcode, onlyChanges_raiseFault s code (encode i) info⟩

/-- Settles O57: a Tick and a Reset always answer, and a Cycle does within the depth of the stack. -/
theorem stepNeverStops : Obligations.StepNeverStops := by
  intro s h
  have hdepth : s.takeOp.sp.toNat ≤ 16 := by rw [State.takeOp_eq]; exact h.depth
  rw [step_eq]
  cases s.nextOp with
  | cycle key rnd => exact cycle_answers key rnd hdepth
  | tick => exact ⟨_, rfl⟩
  | reset rom clears => exact ⟨_, rfl⟩

/-- Settles O6: the head of the schedule, or a free operation, is performed by its own definition. -/
theorem stepPerformsNextOperation : Obligations.StepPerformsNextOperation := by
  refine ⟨fun s op rest h => ?_, fun s h => ?_, fun _ _ _ => rfl, fun _ => rfl, fun _ _ => rfl, fun _ _ => rfl⟩
  · rw [step_eq, s.nextOp_cons op rest h, s.takeOp_cons op rest h]
  · rw [step_eq, State.nextOp_nil h, State.takeOp_nil h]

/-- Settles O7: the step is a Cycle that fetches and decodes the two bytes. -/
theorem stepRunsDecodedInstruction : Obligations.StepRunsDecodedInstruction := by
  intro s key rnd rest i hsched hrun hpc hi _
  rw [stepPerformsNextOperation.1 s _ rest hsched]
  exact cycle_of_decode hrun (State.fetchWord_eq _ hpc) hi

/-- Settles O8: a Cycle on a halted core only presents the ports, and a Tick only clears `TONE`. -/
theorem haltedCoreChangesNothing : Obligations.HaltedCoreChangesNothing := by
  intro s h
  rw [tick_of_halted h]
  exact ⟨fun key rnd => ⟨_, cycle_of_halted h, rfl, rfl, rfl, onlyChanges_present s key rnd⟩,
    onlyChanges_setTone s false, rfl⟩

/-- Settles O11: the fetch fault names the first outside address, `PC` itself unless it is `0xFFF`. -/
theorem fetchOutsideMemoryHalts : Obligations.FetchOutsideMemoryHalts := by
  intro s key rnd hrun hpc
  have hinfo : (BitVec.ofNat 16 (Memory.firstOutside s.pc.toNat)).toNat =
      if 0xFFF < s.pc.toNat then s.pc.toNat else 0x1000 := by
    have := s.pc.isLt
    simp only [Memory.firstOutside, BitVec.toNat_ofNat]
    split <;> omega
  exact ⟨_, cycle_of_fetchFault hrun hpc, rfl, rfl, rfl, rfl, hinfo, rfl, rfl, rfl,
    ((onlyChanges_present s key rnd).trans (onlyChanges_raiseFault _ _ _ _)).mono (by simp)⟩

end Sys2Proof.Machine
end

section
/-! SUPPORT. Where a call and a return go when they do not fault (R140, R142), and where a skip leaves `PC`. -/

namespace Sys2Proof.Machine

variable {s : State}

/-- With room on the stack, a call can only push. -/
theorem exec_call_of_room (nnn : Addr12) (h : s.sp.toNat < 16) :
    exec (.call nnn) s =
      .next (State.setPc { s with stack := s.stack.set s.sp.toNat s.pc h, sp := s.sp + 1 } (zext16 nnn)) := by
  obtain ⟨hfull, -⟩ | ⟨_, e⟩ | ⟨hover, -⟩ := exec_call_cases nnn s
  · omega
  · exact e
  · omega

/-- With `k + 1` addresses held, a return can only pop entry `k`. -/
theorem exec_ret_of_held {k : Fin 16} (hk : s.sp.toNat = k.val + 1) :
    exec .ret s = .next (State.setPc { s with sp := s.sp - 1 } s.stack[k]) := by
  obtain ⟨hempty, -⟩ | ⟨j, hj, e⟩ | ⟨hover, -⟩ := exec_ret_cases s
  · omega
  · have hjk : j = k := Fin.ext (by omega)
    rw [e, hjk]
  · omega

section
variable (s)

/-- The frame of a call and of a return that does not fault. -/
theorem onlyChanges_setStack_setPc (stack : Vector Word 16) (sp : Byte) (w : Word) :
    OnlyChanges [.counter, .stack] s (State.setPc { s with stack := stack, sp := sp } w) :=
  ((onlyChanges_setStack s stack sp).trans (onlyChanges_setPc _ w)).mono (by simp)

theorem State.skipIf_beq_pc (a b : Byte) : (s.skipIf (a == b)).pc = if a = b then s.pc + 2 else s.pc := by
  simp [State.skipIf_eq]

theorem State.skipIf_bne_pc (a b : Byte) : (s.skipIf (a != b)).pc = if a = b then s.pc else s.pc + 2 := by
  rw [State.skipIf_eq, State.setPc_pc]
  by_cases h : a = b <;> simp [h]

end

end Sys2Proof.Machine
end

section
/-! PROOFS. Control flow: jumps, calls, returns and skips (O22 to O24, O26 to O29). -/

namespace Sys2Proof.Machine

/-- Settles O23: `exec_call_of_room` names the state after the push. -/
theorem callPushesReturnAddress : Obligations.CallPushesReturnAddress := by
  intro nnn s h
  refine ⟨_, exec_call_of_room nnn h, ?_, fun k => ?_, zext16_toNat nnn, onlyChanges_setStack_setPc s _ _ _⟩
  · rw [State.setPc_sp]
    bv_omega
  · simp [Vector.getElem_set, eq_comm]

/-- Settles O24: `exec_ret_of_held` names the state after the pop. -/
theorem returnPopsAddress : Obligations.ReturnPopsAddress := by
  intro s k hk
  refine ⟨_, exec_ret_of_held hk, ?_, rfl, rfl, onlyChanges_setStack_setPc s _ _ _⟩
  rw [State.setPc_sp]
  bv_omega

/-- Settles O26: the call leaves its return address at the entry `SP` held, which is the one the return uncovers. -/
theorem callThenReturnRoundTrip : Obligations.CallThenReturnRoundTrip := by
  intro nnn s t u h ht husp hustack
  obtain ⟨t', ht', htsp, htstack, -, -⟩ := callPushesReturnAddress nnn s h
  cases ht'.symm.trans ht
  let k : Fin 16 := ⟨s.sp.toNat, h⟩
  obtain ⟨r, hr, hrsp, hrpc, hrstack, hframe⟩ := returnPopsAddress u k (by rw [husp, htsp])
  have htop : t.stack[k] = s.pc := (htstack k).trans (if_pos rfl)
  refine ⟨r, hr, ?_, BitVec.eq_of_toNat_eq hrsp, hrstack.trans hustack, hframe⟩
  rw [hrpc, hustack, htop]

/-- Settles O22: the target lies in memory, and only at `0xFFF` is the second byte of the next fetch outside. -/
theorem jumpSetsCounter : Obligations.JumpSetsCounter := by
  intro nnn s
  have hpc : (s.setPc (zext16 nnn)).pc.toNat = nnn.toNat := zext16_toNat nnn
  refine ⟨_, rfl, hpc, onlyChanges_setPc s _, fun hne => ?_, ?_⟩
  · have hin : nnn.toNat ≤ 0xFFE := by bv_omega
    exact ⟨_, State.fetchWord_eq _ (hpc.trans_le hin)⟩
  · rintro rfl hrun key rnd
    have hout : 0xFFE < (s.setPc (zext16 0xFFF)).pc.toNat := by rw [hpc]; decide
    exact ⟨_, cycle_of_fetchFault hrun hout, rfl, rfl, rfl⟩

/-- Settles O27: the two skips test equality and its negation. -/
theorem skipsOnImmediate : Obligations.SkipsOnImmediate := fun x nn s =>
  ⟨⟨_, rfl, s.skipIf_beq_pc (s.readV x) nn, onlyChanges_skipIf s _⟩,
    ⟨_, rfl, s.skipIf_bne_pc (s.readV x) nn, onlyChanges_skipIf s _⟩⟩

/-- Settles O28: the two skips test equality and its negation. -/
theorem skipsOnRegisters : Obligations.SkipsOnRegisters := fun x y s =>
  ⟨⟨_, rfl, s.skipIf_beq_pc (s.readV x) (s.readV y), onlyChanges_skipIf s _⟩,
    ⟨_, rfl, s.skipIf_bne_pc (s.readV x) (s.readV y), onlyChanges_skipIf s _⟩⟩

/-- Settles O29: the sum is at most `0xFFF + 0xFF`, so 16 bits hold it. -/
theorem indexedJumpAddsV0 : Obligations.IndexedJumpAddsV0 := fun nnn s =>
  ⟨_, rfl, indexedTarget_toNat nnn (s.readV 0), onlyChanges_setPc s _⟩

end Sys2Proof.Machine
end

section
/-! SUPPORT. What an instruction that ends in a register write answers, with and without a flag, and the ALU's results
and flags as numbers (R7, R172). -/

namespace Sys2Proof.Machine

/-! ### Instructions that end in a register write -/

section
variable {s : State} {i : Instr} {x : RegIx} {b : Byte}

/-- The result is given bit by bit: the shape of the logic instructions and of `RND`. -/
theorem exec_setV_bits {bit : Nat → Bool} (he : exec i s = .next (s.setV x b)) (hb : ∀ k, b.getLsbD k = bit k) :
    ∃ t, exec i s = .next t ∧ (∀ k, (t.readV x).getLsbD k = bit k) ∧ (∀ r, r ≠ x → t.readV r = s.readV r) ∧
      OnlyChanges [.registers] s t :=
  ⟨_, he, fun k => by rw [State.readV_setV_self, hb], fun r => s.readV_setV_ne x r b, onlyChanges_setV s x b⟩

/-- Result and flag are given under a reading `num` of bytes as numbers; `VF` is asked for first, because the flag is
written last (R127). -/
theorem exec_setWithFlag_num {f : Bool} {α : Type} (num : Byte → α) {flag result : α}
    (he : exec i s = .next (s.setWithFlag x b f)) (hf : num (flagByte f) = flag) (hb : num b = result) :
    ∃ t, exec i s = .next t ∧
      (∀ r, num (t.readV r) = if r = VF then flag else if r = x then result else num (s.readV r)) ∧
      OnlyChanges [.registers] s t :=
  ⟨_, he, fun r => by rw [State.readV_setWithFlag, apply_ite num, apply_ite num, hf, hb],
    onlyChanges_setWithFlag s x b f⟩

end

/-! ### Flags as numbers -/

theorem flagByte_toNat {f : Bool} {p : Prop} [Decidable p] (h : f = true ↔ p) :
    (flagByte f).toNat = if p then 1 else 0 := by
  simp only [flagByte, h, apply_ite BitVec.toNat]
  rfl

theorem flagByte_carryOut_toNat (a b : Byte) :
    (flagByte (carryOut a b)).toNat = if 255 < a.toNat + b.toNat then 1 else 0 := flagByte_toNat (carryOut_iff a b)

/-- As an integer, the reading under which a difference is taken modulo 256. -/
theorem natCast_flagByte_noBorrow (a b : Byte) :
    ((flagByte (noBorrow a b)).toNat : Int) = if b.toNat ≤ a.toNat then 1 else 0 := by
  rw [flagByte_toNat (noBorrow_iff a b), apply_ite Nat.cast]
  rfl

theorem lowBit_iff (a : Byte) : lowBit a = true ↔ a.toNat % 2 = 1 := by
  simp [lowBit, BitVec.getLsbD, Nat.testBit_zero]

theorem highBit_iff (a : Byte) : highBit a = true ↔ 128 ≤ a.toNat := by
  have hmsb : highBit a = a.msb := (BitVec.msb_eq_getLsbD_last a).symm
  rw [hmsb, BitVec.msb_eq_decide, decide_eq_true_iff]

theorem flagByte_lowBit_toNat (a : Byte) : (flagByte (lowBit a)).toNat = a.toNat % 2 := by
  rw [flagByte_toNat (lowBit_iff a)]
  split <;> omega

theorem flagByte_highBit_toNat (a : Byte) : (flagByte (highBit a)).toNat = a.toNat / 128 := by
  rw [flagByte_toNat (highBit_iff a)]
  split <;> omega

/-! ### Results as numbers -/

/-- The exact difference, which may be negative, modulo 256. -/
theorem natCast_toNat_sub (a b : Byte) : ((a - b).toNat : Int) = ((a.toNat : Int) - b.toNat) % 256 := by
  rw [BitVec.toNat_sub]
  omega

theorem toNat_shiftRight_one (a : Byte) : (a >>> 1).toNat = a.toNat / 2 := by
  rw [BitVec.toNat_ushiftRight, Nat.shiftRight_one]

theorem toNat_shiftLeft_one (a : Byte) : (a <<< 1).toNat = a.toNat * 2 % 256 := by
  rw [BitVec.toNat_shiftLeft, Nat.shiftLeft_eq]

end Sys2Proof.Machine
end

section
/-! PROOFS. The ALU: loads, arithmetic, logic, shifts and random (O30 to O36). -/

namespace Sys2Proof.Machine

/-- Settles O33: the sum and the carry, both on the operands as they were. -/
theorem addSetsCarry : Obligations.AddSetsCarry := fun x y s =>
  exec_setWithFlag_num BitVec.toNat rfl (flagByte_carryOut_toNat (s.readV x) (s.readV y)) (BitVec.toNat_add _ _)

/-- Settles O34: the two subtractions are one, with minuend and subtrahend exchanged. -/
theorem subtractSetsNoBorrow : Obligations.SubtractSetsNoBorrow := fun x y s =>
  ⟨exec_setWithFlag_num (fun b => (b.toNat : Int)) rfl (natCast_flagByte_noBorrow (s.readV x) (s.readV y))
      (natCast_toNat_sub _ _),
    exec_setWithFlag_num (fun b => (b.toNat : Int)) rfl (natCast_flagByte_noBorrow (s.readV y) (s.readV x))
      (natCast_toNat_sub _ _)⟩

/-- Settles O35: the bit shifted out is the remainder by 2 to the right, the quotient by 128 to the left. -/
theorem shiftsMoveOneBit : Obligations.ShiftsMoveOneBit := fun x _ s =>
  ⟨exec_setWithFlag_num BitVec.toNat rfl (flagByte_lowBit_toNat (s.readV x)) (toNat_shiftRight_one _),
    exec_setWithFlag_num BitVec.toNat rfl (flagByte_highBit_toNat (s.readV x)) (toNat_shiftLeft_one _)⟩

/-- Settles O32: each operation, bit by bit. -/
theorem logicIsBitwise : Obligations.LogicIsBitwise := fun _ _ _ =>
  ⟨exec_setV_bits rfl fun _ => BitVec.getLsbD_or, exec_setV_bits rfl fun _ => BitVec.getLsbD_and,
    exec_setV_bits rfl fun _ => BitVec.getLsbD_xor⟩

/-- Settles O36: the mask, bit by bit, on whatever byte the state's `RND` holds. -/
theorem randomIsMaskedInput : Obligations.RandomIsMaskedInput := fun _ _ _ =>
  exec_setV_bits rfl fun _ => BitVec.getLsbD_and

/-- Settles O30: one register write each. -/
theorem loadsWriteDestination : Obligations.LoadsWriteDestination := fun x y nn s =>
  ⟨⟨_, rfl, fun r => s.readV_setV x r nn, onlyChanges_setV s x nn⟩,
    ⟨_, rfl, fun r => s.readV_setV x r (s.readV y), onlyChanges_setV s x _⟩⟩

/-- Settles O31: one register write, of the sum of two bytes. -/
theorem addImmediateWraps : Obligations.AddImmediateWraps := fun x nn s =>
  ⟨_, rfl, fun r => by rw [State.readV_setV, apply_ite BitVec.toNat, BitVec.toNat_add], onlyChanges_setV s x _⟩

end Sys2Proof.Machine
end

section
/-! SUPPORT. What the memory instructions answer with their block in range, and the index register and the flag of `Fx1E`
as numbers (R191, R193 to R195). -/

namespace Sys2Proof.Machine

section
variable (s : State)

/-- The byte at offset `k` of a stored block. -/
theorem State.readByte_writeBlock_add (a : Nat) {k : Nat} {bs : List Byte} (hk : k < bs.length) :
    (s.writeBlock a bs).readByte (a + k) = bs[k] := by
  have hin : a ≤ a + k ∧ a + k - a < bs.length := by omega
  rw [State.readByte_writeBlock, dif_pos hin]
  simp only [Nat.add_sub_cancel_left]

/-- Writing registers from `V[0]` up takes each from the byte at its own offset in the block. -/
theorem State.readV_writeVs_readBlock (a n : Nat) (r : RegIx) :
    (s.writeVs 0 (s.readBlock a n)).readV r = if r.toNat < n then s.readByte (a + r.toNat) else s.readV r := by
  rw [State.readV_writeVs]
  by_cases hr : r.toNat < n
  · rw [dif_pos (by simpa using hr), if_pos hr, State.getElem_readBlock, Nat.sub_zero]
  · rw [dif_neg (by simpa using hr), if_neg hr]

end

section
variable {s : State} (x : RegIx)

/-- Past a block in range `I` is at most `0x1000`, so 16 bits hold it. -/
theorem State.advanceI_toNat (h : s.i.toNat + x.toNat ≤ 0xFFF) : (s.advanceI x).i.toNat = s.i.toNat + x.toNat + 1 := by
  simp only [State.advanceI, State.setI_i, regCount, BitVec.toNat_add, BitVec.toNat_ofNat]
  omega

theorem exec_ldB_inRange (h : s.i.toNat ≤ 0xFFD) :
    exec (.ldB x) s = .next (s.writeBlock s.i.toNat (decimalDigits (s.readV x))) :=
  congrArg _ (s.withBlock_inRange _ _ _ (.inr (by omega)))

theorem exec_ldRegs_inRange (h : s.i.toNat + x.toNat ≤ 0xFFF) :
    exec (.ldRegs x) s = .next ((s.writeVs 0 (s.readBlock s.i.toNat (regCount x))).advanceI x) :=
  congrArg _ (s.withBlock_inRange _ _ _ (.inr (by unfold regCount; omega)))

end

/-- The three digits of a byte lose nothing in 8 bits. -/
theorem decimalDigits_toNat (b : Byte) :
    (decimalDigits b).map BitVec.toNat = [b.toNat / 100, b.toNat / 10 % 10, b.toNat % 10] := by
  simp only [decimalDigits, List.map_cons, List.map_nil, BitVec.toNat_ofNat, List.cons.injEq, and_true]
  omega

/-- A stored byte reads back as the number the block lists at its offset. -/
theorem State.readByte_writeBlock_toNat (s : State) (a : Nat) {bs : List Byte} {ns : List Nat}
    (hns : bs.map BitVec.toNat = ns) {k : Nat} (hk : k < ns.length) :
    ((s.writeBlock a bs).readByte (a + k)).toNat = ns[k] := by
  subst hns
  rw [List.getElem_map, State.readByte_writeBlock_add]

theorem flagByte_indexOverflow_toNat (n : Nat) : (flagByte (indexOverflow n)).toNat = if 0xFFF < n then 1 else 0 :=
  flagByte_toNat (indexOverflow_iff n)

end Sys2Proof.Machine
end

section
/-! PROOFS. The index register and the memory instructions (O37 to O42). -/

namespace Sys2Proof.Machine

/-- Settles O40: the three bytes of the block are the digits, and O55 bounds the store. -/
theorem decimalDigitsAreStored : Obligations.DecimalDigitsAreStored := by
  intro x s h
  have he := exec_ldB_inRange x h
  have hdigits := decimalDigits_toNat (s.readV x)
  exact ⟨_, he, s.readByte_writeBlock_toNat _ hdigits (k := 0) (by simp),
    s.readByte_writeBlock_toNat _ hdigits (k := 1) (by simp),
    s.readByte_writeBlock_toNat _ hdigits (k := 2) (by simp),
    storesChangeOnlyTheirBlock.1 x s _ he, onlyChanges_writeBlock s _ _⟩

/-- Settles O41: register `r` lies at offset `r` of the block, and O55 bounds the store. -/
theorem registersAreStored : Obligations.RegistersAreStored := by
  intro x s h
  have he := exec_stRegs_inRange x h
  exact ⟨_, he, fun _ hr => readByte_exec_stRegs h hr he, storesChangeOnlyTheirBlock.2 x s _ he,
    State.advanceI_toNat x h, (onlyChanges_writeBlock s _ _).trans (onlyChanges_setI _ _)⟩

/-- Settles O42: register `r` is loaded from offset `r` of the block if it is one of the `x + 1`. -/
theorem registersAreLoaded : Obligations.RegistersAreLoaded := by
  intro x s h
  have hi : (s.writeVs 0 (s.readBlock s.i.toNat (regCount x))).i = s.i := by rw [State.writeVs_eq]
  refine ⟨_, exec_ldRegs_inRange x h, fun r => ?_, ?_, (onlyChanges_writeVs s _ _).trans (onlyChanges_setI _ _)⟩
  · simpa only [State.advanceI, State.setI_readV, regCount, Nat.lt_succ_iff] using s.readV_writeVs_readBlock s.i.toNat (regCount x) r
  · rw [State.advanceI_toNat x (by rw [hi]; exact h), hi]

/-- Settles O37: 12 bits zero-extended keep their value. -/
theorem loadIndexZeroExtends : Obligations.LoadIndexZeroExtends := fun nnn s =>
  ⟨_, rfl, zext16_toNat nnn, onlyChanges_setI s _⟩

/-- Settles O38: five times a byte is at most 1275, so 16 bits hold it. -/
theorem glyphAddressIsFiveTimes : Obligations.GlyphAddressIsFiveTimes := fun x s =>
  ⟨_, rfl, glyphAddress_toNat (s.readV x), onlyChanges_setI s _⟩

/-- Settles O39: the wrapped sum goes to `I`; the flag is of the exact sum, and its write is the only one to a register. -/
theorem addToIndexWraps : Obligations.AddToIndexWraps := by
  intro x s
  refine ⟨_, rfl, ?_, fun r => ?_, (onlyChanges_setI s _).trans (onlyChanges_setV _ VF _)⟩
  · rw [State.setFlag_eq, State.setV_i, State.setI_i, BitVec.toNat_ofNat, indexSum]
    omega
  · rw [State.setFlag_eq, State.readV_setV, State.setI_readV, apply_ite BitVec.toNat, flagByte_indexOverflow_toNat]
    rfl

end Sys2Proof.Machine
end

section
/-! SUPPORT. The closed form of a whole sprite (R214): row after row, drawing XORs the set bits into the screen and reports
a collision exactly when one of them is over a lit pixel. -/

namespace Sys2Proof.Machine

/-! ### Drawing a bitmap -/

/-- From `c` to `c'` the bitmap `bit`, clipped to the screen, is XORed in, and the hit is set if some bit of it falls on a
pixel lit in `c`. -/
structure XorsBitmap (bit : Nat → Nat → Bool) (c c' : Canvas) : Prop where
  pixel : ∀ px py, px < 64 → py < 32 → getPixel c'.fb px py = (getPixel c.fb px py ^^ bit px py)
  hit : c'.hit = true ↔
    c.hit = true ∨ ∃ px py, px < 64 ∧ py < 32 ∧ getPixel c.fb px py = true ∧ bit px py = true

/-- Drawing two bitmaps that share no pixel draws their union: the second meets the pixels as they were. -/
theorem XorsBitmap.trans {b₁ b₂ : Nat → Nat → Bool} {c c' c'' : Canvas} (h₁ : XorsBitmap b₁ c c')
    (h₂ : XorsBitmap b₂ c' c'') (disjoint : ∀ px py, b₁ px py = true → b₂ px py = false) :
    XorsBitmap (fun px py => b₁ px py || b₂ px py) c c'' where
  pixel px py hx hy := by
    rw [h₂.pixel px py hx hy, h₁.pixel px py hx hy, Bool.xor_assoc]
    cases e : b₁ px py with
    | false => simp
    | true => simp [disjoint px py e]
  hit := by
    have kept : ∀ px py, px < 64 → py < 32 → b₂ px py = true → getPixel c'.fb px py = getPixel c.fb px py := by
      intro px py hx hy e₂
      have e₁ : b₁ px py = false := Bool.eq_false_iff.2 fun e₁ => by simp [disjoint px py e₁] at e₂
      rw [h₁.pixel px py hx hy, e₁, Bool.xor_false]
    rw [h₂.hit, h₁.hit]
    constructor
    · rintro ((h | ⟨px, py, hx, hy, lit, e⟩) | ⟨px, py, hx, hy, lit, e⟩)
      · exact .inl h
      · exact .inr ⟨px, py, hx, hy, lit, by simp [e]⟩
      · exact .inr ⟨px, py, hx, hy, kept px py hx hy e ▸ lit, by simp [e]⟩
    · rintro (h | ⟨px, py, hx, hy, lit, e⟩)
      · exact .inl (.inl h)
      · obtain e | e := Bool.or_eq_true_iff.1 e
        · exact .inl (.inr ⟨px, py, hx, hy, lit, e⟩)
        · exact .inr ⟨px, py, hx, hy, (kept px py hx hy e).trans lit, e⟩

/-! ### Rows and blocks of rows as bitmaps -/

/-- The bitmap of one sprite row with its leftmost bit at column `cx` of screen row `cy`. -/
def rowBit (cx cy : Nat) (row : Byte) (px py : Nat) : Bool :=
  decide (cx ≤ px) && decide (px < cx + 8) && decide (py = cy) && row.getLsbD (7 - (px - cx))

/-- The bitmap of the `n` sprite rows in memory from `a`, with their corner at `cx`, `cy`. -/
def blockBit (s : State) (cx cy a n px py : Nat) : Bool :=
  decide (cx ≤ px) && decide (px < cx + 8) && decide (cy ≤ py) && decide (py < cy + n) &&
    (s.readByte (a + (py - cy))).getLsbD (7 - (px - cx))

theorem spriteBit_eq_blockBit (s : State) (x y : RegIx) (n : Nibble) :
    spriteBit s x y n = blockBit s (s.readV x).toNat (s.readV y).toNat s.i.toNat n.toNat := rfl

/-- A block is its top row and, one screen row and one address further, the block of the others. -/
theorem blockBit_succ (s : State) (cx cy a n px py : Nat) :
    blockBit s cx cy a (n + 1) px py =
      (rowBit cx cy (s.readByte a) px py || blockBit s cx (cy + 1) (a + 1) n px py) := by
  by_cases top : py = cy
  · subst top
    simp [blockBit, rowBit]
  · have from_top : decide (cy ≤ py) = decide (cy + 1 ≤ py) := decide_eq_decide.2 (by omega)
    have to_bottom : decide (py < cy + (n + 1)) = decide (py < cy + 1 + n) := decide_eq_decide.2 (by omega)
    by_cases below : cy + 1 ≤ py
    · have address : a + (py - cy) = a + 1 + (py - (cy + 1)) := by omega
      simp [blockBit, rowBit, top, from_top, to_bottom, address]
    · simp [blockBit, rowBit, top, from_top, below]

/-- The top row shares no pixel with the rows below it. -/
theorem blockBit_below_rowBit {s : State} {cx cy a n px py : Nat} {row : Byte} (h : rowBit cx cy row px py = true) :
    blockBit s cx (cy + 1) a n px py = false := by
  simp only [rowBit, Bool.and_eq_true, decide_eq_true_eq] at h
  obtain ⟨⟨-, top⟩, -⟩ := h
  simp [blockBit, top]

/-- The eight columns of a row draw its bitmap. -/
theorem drawColumns_xorsBitmap (cx cy : Nat) (row : Byte) (c : Canvas) :
    XorsBitmap (rowBit cx cy row) c (drawColumns cx cy row 8 c) where
  pixel px py hx hy := getPixel_drawColumns cx cy row 8 c px py hx hy
  hit := by
    rw [hit_drawColumns]
    refine or_congr_right ⟨?_, ?_⟩
    · rintro ⟨j, hj, set, hx, hy, lit⟩
      exact ⟨cx + j, cy, hx, hy, lit, by simp [rowBit, hj, set]⟩
    · rintro ⟨px, py, hx, hy, lit, set⟩
      simp only [rowBit, Bool.and_eq_true, decide_eq_true_eq] at set
      obtain ⟨⟨⟨left, right⟩, rfl⟩, set⟩ := set
      have column : cx + (px - cx) = px := by omega
      exact ⟨px - cx, by omega, set, by rwa [column], hy, by rwa [column]⟩

/-- The rows read from a block of memory draw the block's bitmap. -/
theorem drawRows_xorsBitmap (s : State) (cx cy a n : Nat) (c : Canvas) :
    XorsBitmap (blockBit s cx cy a n) c (drawRows cx cy (s.readBlock a n) c) := by
  induction n generalizing cy a c with
  | zero =>
    have empty : ∀ px py, blockBit s cx cy a 0 px py = false := fun px py => by
      rw [Bool.eq_false_iff]
      intro h
      simp only [blockBit, Bool.and_eq_true, decide_eq_true_eq] at h
      omega
    constructor <;> simp [empty, State.readBlock, Memory.readRange, drawRows]
  | succ n ih =>
    have rows : blockBit s cx cy a (n + 1) = _ := funext₂ (blockBit_succ s cx cy a n)
    rw [rows]
    exact (drawColumns_xorsBitmap cx cy (s.readByte a) c).trans (ih (cy + 1) (a + 1) _)
      fun _ _ => blockBit_below_rowBit

/-! ### `Dxyn` -/

section
variable {s t : State} {x y : RegIx} {n : Nibble}

theorem spriteBit_congr (hx : t.readV x = s.readV x) (hy : t.readV y = s.readV y) (hi : t.i = s.i)
    (hm : ∀ a, t.readByte a = s.readByte a) : spriteBit t x y n = spriteBit s x y n := by
  funext px py
  simp only [spriteBit, hx, hy, hi, hm]

/-- A sprite with its corner past the right or the bottom edge has no bit on the screen. -/
theorem spriteBit_offScreen (h : 64 ≤ (s.readV x).toNat ∨ 32 ≤ (s.readV y).toNat) {px py : Nat} (hx : px < 64)
    (hy : py < 32) : spriteBit s x y n px py = false := by
  rw [Bool.eq_false_iff]
  intro e
  simp only [spriteBit, Bool.and_eq_true, decide_eq_true_eq] at e
  omega

theorem not_collides_offScreen (h : 64 ≤ (s.readV x).toNat ∨ 32 ≤ (s.readV y).toNat) : ¬Collides s x y n := by
  rintro ⟨px, py, hx, hy, -, e⟩
  simp [spriteBit_offScreen h hx hy] at e

theorem exec_drw_inRange (h : n.toNat = 0 ∨ s.i.toNat + n.toNat - 1 ≤ 0xFFF) :
    exec (.drw x y n) s = .next (s.drawSprite x y (s.readBlock s.i.toNat n.toNat)) :=
  congrArg _ (s.withBlock_inRange _ _ _ h)

/-- A draw that does not halt has its bytes in range. -/
theorem inRange_of_exec_drw (he : exec (.drw x y n) s = .next t) (ht : t.halt = false) :
    n.toNat = 0 ∨ s.i.toNat + n.toNat - 1 ≤ 0xFFF := by
  cases he
  obtain ⟨h, -⟩ | ⟨-, e⟩ := s.withBlock_cases n.toNat (encode (.drw x y n)) _
  · exact h
  · rw [e] at ht
    simp at ht

end

end Sys2Proof.Machine
end

section
/-! PROOFS. The display: clear, draw, draw twice, and draw off the screen (O45 to O48). -/

namespace Sys2Proof.Machine

/-- Settles O46: the rows at `I` draw the bitmap of the sprite, and the flag of the draw is the only register write. -/
theorem drawXorsClippedSprite : Obligations.DrawXorsClippedSprite := by
  intro x y n s h
  have drawn := drawRows_xorsBitmap s (s.readV x).toNat (s.readV y).toNat s.i.toNat n.toNat ⟨s.fb, false⟩
  rw [← spriteBit_eq_blockBit] at drawn
  have hit_iff := drawn.hit.trans (or_iff_right Bool.false_ne_true)
  refine ⟨_, exec_drw_inRange h, drawn.pixel, fun hc => ?_, fun hc => ?_, fun r hr => ?_,
    onlyChanges_drawSprite s x y _⟩
  · exact (State.readV_setV_self _ VF _).trans (by rw [hit_iff.2 hc]; rfl)
  · exact (State.readV_setV_self _ VF _).trans (by rw [Bool.eq_false_iff.2 (mt hit_iff.1 hc)]; rfl)
  · exact State.readV_setV_ne _ _ _ _ hr

/-- Settles O47: the second draw XORs the same bitmap, so every pixel is back, and it collides where a bit of it falls on a
pixel the first draw lit. -/
theorem drawTwiceRestoresScreen : Obligations.DrawTwiceRestoresScreen := by
  intro x y n s t u _ hst ht hx hy htu
  have inRange := inRange_of_exec_drw hst ht
  obtain ⟨_, e, pixel_t, -, -, -, frame⟩ := drawXorsClippedSprite x y n s inRange
  cases hst.symm.trans e
  have hi : t.i = s.i := frame .index (by simp)
  obtain ⟨_, e, pixel_u, hit, noHit, -, -⟩ := drawXorsClippedSprite x y n t (by rwa [hi])
  cases htu.symm.trans e
  have same : spriteBit t x y n = spriteBit s x y n := spriteBit_congr hx hy hi (frame .memory (by simp))
  constructor
  · apply Framebuffer.ext_getPixel
    intro px py hx hy
    rw [pixel_u px py hx hy, pixel_t px py hx hy, same, Bool.xor_assoc, Bool.xor_self, Bool.xor_false]
  · have flag_iff : u.readV 15 = 1 ↔ Collides t x y n :=
      ⟨fun h1 => by_contra fun hc => absurd (h1.symm.trans (noHit hc)) (by decide), hit⟩
    rw [flag_iff, Collides, same]
    refine exists₂_congr fun px py => and_congr_right fun hx => and_congr_right fun hy => ?_
    rw [pixel_t px py hx hy]
    cases getPixel s.fb px py <;> simp

/-- Settles O48: no bit of the sprite is on the screen, so the draw XORs nothing and hits nothing. -/
theorem offScreenDrawChangesNoPixel : Obligations.OffScreenDrawChangesNoPixel := by
  intro x y n s h off
  obtain ⟨t, e, pixel, -, noHit, -, -⟩ := drawXorsClippedSprite x y n s h
  refine ⟨t, e, Framebuffer.ext_getPixel fun px py hx hy => ?_, noHit (not_collides_offScreen off)⟩
  rw [pixel px py hx hy, spriteBit_offScreen off hx hy, Bool.xor_false]

/-- Settles O45: the screen becomes the one with every pixel off. -/
theorem clearScreenTurnsPixelsOff : Obligations.ClearScreenTurnsPixelsOff := fun s =>
  ⟨_, rfl, getPixel_off, onlyChanges_setFb s _⟩

end Sys2Proof.Machine
end

section
/-! SUPPORT. What a key skip does on an index that names a key (R220, R221). -/

namespace Sys2Proof.Machine

variable {s : State} {k : Byte} {w : Word} {c : Bool}

/-- An index that names a key takes no fault. -/
theorem State.keySkip_inRange (h : k.toNat ≤ 15) : s.keySkip k w c = s.skipIf c := by
  obtain ⟨houtside, -⟩ | ⟨-, e⟩ := s.keySkip_cases k w c
  · omega
  · exact e

theorem exec_keySkip_inRange {i : Instr} (he : exec i s = .next (s.keySkip k w c)) (h : k.toNat ≤ 15) :
    ∃ t, exec i s = .next t ∧ t.pc = (if c then s.pc + 2 else s.pc) ∧ OnlyChanges [.counter] s t := by
  rw [State.keySkip_inRange h] at he
  exact ⟨_, he, by rw [State.skipIf_eq, State.setPc_pc], onlyChanges_skipIf s c⟩

end Sys2Proof.Machine
end

section
/-! PROOFS. The keyboard and the timers (O49, O51, O52). -/

namespace Sys2Proof.Machine

/-- Settles O49: both are key skips on an index in range, the second on the negation of the sampled bit. -/
theorem keySkipsTestSample : Obligations.KeySkipsTestSample := by
  intro x s h
  refine ⟨exec_keySkip_inRange rfl h, ?_⟩
  obtain ⟨t, he, hpc, frame⟩ := exec_keySkip_inRange (i := .sknp x) rfl h
  refine ⟨t, he, hpc.trans ?_, frame⟩
  cases held : s.key.getLsbD (s.readV x).toNat <;> simp [keyHeld, held]

/-- Settles O51: entering the wait is the whole effect; no key is looked at. -/
theorem keyWaitIsEntered : Obligations.KeyWaitIsEntered := fun x s =>
  ⟨_, rfl, s.enterWait_wait x, s.enterWait_waitReg x, onlyChanges_enterWait s x⟩

/-- Settles O52: one write each, to a register, to `DT` and to `ST`. -/
theorem timerMoves : Obligations.TimerMoves := fun x s =>
  ⟨⟨_, rfl, fun r => s.readV_setV x r s.dt, onlyChanges_setV s x s.dt⟩,
    ⟨_, rfl, s.setDt_dt (s.readV x), onlyChanges_setDt s _⟩,
    ⟨_, rfl, s.setSt_st (s.readV x), onlyChanges_setSt s _⟩⟩

end Sys2Proof.Machine
end

section
/-! SUPPORT. What a Tick does to a core that is not halted (R252), and what it keeps of every core. -/

namespace Sys2Proof.Machine

variable {s : State}

theorem tick_of_notHalted (h : s.halt = false) :
    tick s = { s with dt := countDown s.dt, st := countDown s.st, tone := decide (0 < s.st.toNat) } := by
  rw [tick, h]; rfl

@[simp] theorem tick_halt (s : State) : (tick s).halt = s.halt := by
  unfold tick; split <;> rfl

@[simp] theorem tick_err (s : State) : (tick s).err = s.err := by
  unfold tick; split <;> rfl

theorem tick_dt_toNat (h : s.halt = false) : (tick s).dt.toNat = s.dt.toNat - 1 := by
  rw [tick_of_notHalted h, countDown_toNat]

theorem tick_st_toNat (h : s.halt = false) : (tick s).st.toNat = s.st.toNat - 1 := by
  rw [tick_of_notHalted h, countDown_toNat]

theorem tick_tone_iff (h : s.halt = false) : (tick s).tone = true ↔ 0 < s.st.toNat := by
  rw [tick_of_notHalted h, decide_eq_true_iff]

theorem onlyChanges_tick (h : s.halt = false) : OnlyChanges [.delay, .sound, .tone] s (tick s) := by
  rw [tick_of_notHalted h]
  simp [onlyChanges_iff, Part.same, State.readV, State.readByte]

end Sys2Proof.Machine
end

section
/-! SUPPORT. When the faults are taken, by an instruction (R242 to R245) and by a Cycle (R240), and what the operations do on
a halted core (R249). -/

namespace Sys2Proof.Machine

variable {s t : State}

/-! ### The faults of an instruction -/

/-- The first address outside memory, of an access from `w` that reaches outside, fits `ERR.info`. -/
theorem ofNat_firstOutside (w : Word) :
    BitVec.ofNat 16 (Memory.firstOutside w.toNat) = if 0xFFF < w.toNat then w else 0x1000 := by
  unfold Memory.firstOutside
  split
  · rw [Nat.max_eq_left (by omega), BitVec.ofNat_toNat, BitVec.setWidth_eq]
  · rw [Nat.max_eq_right (by omega)]; rfl

/-- A block that reaches outside memory: the fault instead of the block's effect `k` (R242). -/
theorem State.withBlock_fault {n : Nat} (hn : 0 < n) (hout : 0xFFF < s.i.toNat + n - 1) (w : Word) (k : State) :
    s.withBlock n w k = { s with
      halt := true
      err := ⟨.addressRange, s.pc, w, if 0xFFF < s.i.toNat then s.i else 0x1000⟩ } := by
  rw [s.withBlock_outside n w k (by omega), State.raiseFault, ofNat_firstOutside]

/-- An index that names no key: the fault instead of a skip (R245). -/
theorem State.keySkip_fault {k : Byte} (hk : 15 < k.toNat) (w : Word) (c : Bool) :
    s.keySkip k w c = { s with halt := true, err := ⟨.keyIndexRange, s.pc, w, k.setWidth 16⟩ } := by
  obtain ⟨-, e⟩ | ⟨hin, -⟩ := s.keySkip_cases k w c
  · rw [e, State.raiseFault, BitVec.ofNat_toNat]
  · omega

theorem exec_call_of_full (nnn : Addr12) (h : s.sp.toNat = 16) :
    exec (.call nnn) s = .next (s.raiseFault .stackOverflow (encode (.call nnn)) 0) := by
  obtain ⟨-, e⟩ | ⟨hroom, -⟩ | ⟨hover, -⟩ := exec_call_cases nnn s
  · exact e
  · omega
  · omega

theorem exec_ret_of_empty (h : s.sp.toNat = 0) :
    exec .ret s = .next (s.raiseFault .stackUnderflow (encode .ret) 0) := by
  obtain ⟨-, e⟩ | ⟨k, hk, -⟩ | ⟨hover, -⟩ := exec_ret_cases s
  · exact e
  · omega
  · omega

/-! ### The faults of a Cycle -/

/-- A word that no row selects has no decoding: the opcode map is complete (R95). -/
theorem decode_error_of_unmatched {w : Word} (h : ∀ r ∈ opcodeMap, r.selects w = false) :
    ∃ why, decode w = .error why := by
  cases hd : decode w with
  | error why => exact ⟨why, rfl⟩
  | ok i =>
    obtain ⟨r, hr, hsel⟩ := (opcodeMapIsDisjointAndComplete.2 w).2 ⟨i, hd⟩
    simp [h r hr] at hsel

theorem cycle_of_decodeError {key : Keys} {rnd : Byte} {w : Word} {why : DecodeReject} (h : s.running)
    (hw : s.fetchWord = some w) (hd : decode w = .error why) :
    cycle key rnd s = .next (((s.present key rnd).setPc (s.pc + 2)).raiseFault .decodeError w 0) := by
  rw [cycle_of_running h, State.runInstruction, State.present_fetchWord, hw]
  simp only [State.dispatch, hd, State.advance_eq, State.present_pc]

/-- A Cycle keeps the halt state, or takes one of the faults that a Cycle can raise; `CapacityError` is none of them. -/
theorem cycle_fault_cases {key : Keys} {rnd : Byte} (hc : cycle key rnd s = .next t) :
    Part.fault.same s t ∨
    t.err.code ∈ [ErrCode.decodeError, .addressRange, .stackOverflow, .stackUnderflow, .keyIndexRange] := by
  obtain ⟨-, e⟩ | ⟨-, -, e⟩ | ⟨-, -, e⟩ | ⟨-, -, w, -, ⟨-, -, e⟩ | ⟨i, -, e⟩⟩ := cycle_cases key rnd s
  · cases e.symm.trans hc; exact .inl ⟨rfl, rfl⟩
  · cases e.symm.trans hc; exact .inl (onlyChanges_scanKeys (s.present key rnd) .fault (by simp))
  · cases e.symm.trans hc; exact .inr (by simp [State.fetchFault])
  · cases e.symm.trans hc; exact .inr (by simp)
  · obtain hkept | ⟨code, hcode, info, rfl⟩ := exec_keptOrFaulted (e.symm.trans hc)
    · exact .inl hkept
    · exact .inr (List.mem_cons_of_mem _ hcode)

/-! ### A halted core (R249) -/

theorem onlyChanges_takeOp (s : State) : OnlyChanges [.host] s s.takeOp := by
  rw [State.takeOp_eq]
  simp [onlyChanges_iff, Part.same, State.readV, State.readByte]

/-- On a halted core a Cycle only presents its inputs and a Tick only clears `TONE`; the third operation is Reset. -/
theorem onlyChanges_perform_of_halted (h : s.halt = true) {op : HostOp} (hop : ∀ rom clears, op ≠ .reset rom clears)
    (hp : perform op s = .next t) : OnlyChanges [.inputs, .tone] s t := by
  cases op with
  | cycle key rnd => cases (cycle_of_halted h).symm.trans hp; exact onlyChanges_present s key rnd
  | tick =>
    cases hp
    rw [tick_of_halted h]
    exact (onlyChanges_setTone s false).mono (by simp)
  | reset rom clears => exact absurd rfl (hop rom clears)

end Sys2Proof.Machine
end

section
/-! PROOFS. The faults and the halt (O12, O17, O20, O25, O43, O50) and the timers (O13, O14). -/

namespace Sys2Proof.Machine

/-- Settles O12: a word that no row selects does not decode, and the Cycle takes the fault with `PC` advanced. -/
theorem unmatchedWordRaisesDecodeError : Obligations.UnmatchedWordRaisesDecodeError := by
  refine ⟨rfl, fun s key rnd w hrun hpc hw hnone => ?_⟩
  obtain ⟨why, hd⟩ := decode_error_of_unmatched hnone
  have hfetch : s.fetchWord = some w := by rw [hw, s.fetchWord_eq hpc]
  exact ⟨_, cycle_of_decodeError hrun hfetch hd, rfl, rfl, rfl, rfl, rfl, rfl,
    (((onlyChanges_present s key rnd).trans (onlyChanges_setPc _ _)).trans (onlyChanges_raiseFault _ _ _ _)).mono
      (by simp)⟩

/-- Settles O14, by induction on the Ticks: each one takes 1 off `ST`, and the last one sounds if `ST` is above 0. -/
theorem toneSoundsForExactlySTTicks : Obligations.ToneSoundsForExactlySTTicks := by
  intro n
  induction n with
  | zero => exact fun s h => tick_tone_iff h
  | succ n ih =>
    intro s h
    rw [Function.iterate_succ_apply, ih (tick s) (by rw [tick_halt, h]), tick_st_toNat h]
    omega

/-- Settles O17: the operation taken and performed leaves the halt state alone. -/
theorem onlyResetLeavesHalt : Obligations.OnlyResetLeavesHalt := by
  intro s t h hop hstep
  have htake := onlyChanges_takeOp s
  obtain ⟨hhalt, -⟩ := htake .fault (by simp)
  have hframe := htake.trans (onlyChanges_perform_of_halted (hhalt.trans h) hop hstep)
  obtain ⟨hhalt', herr⟩ := hframe .fault (by simp)
  exact ⟨hhalt'.trans h, herr, hframe.mono (by simp)⟩

/-- Settles O20: the length of the ROM decides the Reset, and a Cycle that changes the halt state raises another fault. -/
theorem oversizedRomRaisesCapacityError : Obligations.OversizedRomRaisesCapacityError := by
  refine ⟨rfl, fun rom s hlong => ?_, fun rom s hfits => ?_, fun key rnd s t hc hcode => ?_,
    fun s => ⟨tick_err s, tick_halt s⟩⟩
  · obtain ⟨-, e⟩ | ⟨hfits, -⟩ := resetWith_cases rom s
    · rw [e]; exact ⟨rfl, rfl⟩
    · omega
  · obtain ⟨hlong, -⟩ | ⟨-, e⟩ := resetWith_cases rom s
    · omega
    · rw [e]; rfl
  · obtain ⟨hhalt, herr⟩ | hother := cycle_fault_cases hc
    · exact ⟨herr, hhalt⟩
    · simp [hcode] at hother

/-- Settles O43: each of the four is a block operation at `I` under its own word. -/
theorem blockOutsideMemoryHalts : Obligations.BlockOutsideMemoryHalts := by
  intro i len s hi hlen hout
  have hblock : ∃ k, exec i s = .next (s.withBlock len (encode i) k) := by
    obtain ⟨x, rfl, rfl⟩ | ⟨x, rfl, rfl⟩ | ⟨x, rfl, rfl⟩ | ⟨x, y, n, rfl, rfl⟩ := hi <;> exact ⟨_, rfl⟩
  obtain ⟨k, he⟩ := hblock
  rw [he, State.withBlock_fault hlen hout]

/-- Settles O13: both timers count down, and the halted core is O8. -/
theorem tickCountsTimersDown : Obligations.TickCountsTimersDown :=
  ⟨fun _ h => ⟨tick_dt_toNat h, tick_st_toNat h, tick_tone_iff h, onlyChanges_tick h⟩,
    fun s h => (haltedCoreChangesNothing s h).2⟩

/-- Settles O25: at 16 addresses a call can only take its fault, and at none a return. -/
theorem stackFaultsHalt : Obligations.StackFaultsHalt :=
  ⟨fun nnn _ h => exec_call_of_full nnn h, fun _ h => exec_ret_of_empty h⟩

/-- Settles O50: both are key skips on the index in `V[x]`. -/
theorem keyIndexOutOfRangeHalts : Obligations.KeyIndexOutOfRangeHalts := fun _ _ h =>
  ⟨congrArg _ (State.keySkip_fault h _ _), congrArg _ (State.keySkip_fault h _ _)⟩

end Sys2Proof.Machine
end

section
/-! PROOFS. What a Reset sets (O18): the core registers, the halt state and memory. -/

namespace Sys2Proof.Machine

/-- R39 to R41, R45: every core register of a cleared core holds its reset value. -/
theorem State.clearCore_registers (s : State) :
    let t := s.clearCore
    (∀ r, t.readV r = 0) ∧ t.i = 0 ∧ t.pc = 0x200 ∧ t.sp = 0 ∧ (∀ k : Fin 16, t.stack[k] = 0) ∧ t.dt = 0 ∧ t.st = 0 ∧
    t.tone = false ∧ t.wait = false ∧ t.waitReg = 0 :=
  ⟨fun _ => Vector.getElem_replicate _, rfl, rfl, rfl, fun _ => Vector.getElem_replicate _, rfl, rfl, rfl, rfl, rfl⟩

/-- R43, R69: memory of a cleared core with a ROM stored from `0x200`. The font ends below the ROM, so neither hides the
other. -/
theorem State.clearCore_writeBlock_readByte (s : State) (rom : List Byte) (a : Nat) :
    (s.clearCore.writeBlock 0x200 rom).readByte a =
      if h : a < 80 then s.fontset[a] else if 0x200 ≤ a then rom.getD (a - 0x200) 0 else 0 := by
  rw [State.readByte_writeBlock, State.clearCore_readByte, Memory.blank]
  by_cases hfont : a < 80
  · have hbelow : ¬(0x200 ≤ a ∧ a - 0x200 < rom.length) := by omega
    rw [dif_neg hbelow, dif_pos hfont, dif_pos hfont]
  · rw [dif_neg hfont, dif_neg hfont]
    by_cases hrom : 0x200 ≤ a ∧ a - 0x200 < rom.length
    · rw [dif_pos hrom, if_pos hrom.1, List.getD_eq_getElem _ _ hrom.2]
    · rw [dif_neg hrom]
      split
      · rw [List.getD_eq_default _ _ (by omega)]
      · rfl

/-- Settles O18: neither loading the ROM nor refusing it touches a register of the cleared core. -/
theorem resetRebuildsCore : Obligations.ResetRebuildsCore := by
  refine ⟨fun rom s => ?_, fun rom s hfits => ?_, fun rom s hlong => ?_⟩
  · obtain ⟨-, e⟩ | ⟨-, e⟩ := resetWith_cases rom s <;> rw [e] <;> exact s.clearCore_registers
  · obtain ⟨hlong, -⟩ | ⟨-, e⟩ := resetWith_cases rom s
    · omega
    · rw [e]
      exact ⟨rfl, rfl, fun a _ => s.clearCore_writeBlock_readByte rom a⟩
  · obtain ⟨-, e⟩ | ⟨hfits, -⟩ := resetWith_cases rom s
    · rw [e]
      exact ⟨rfl, rfl, fun a _ => s.clearCore_readByte a⟩
    · omega

end Sys2Proof.Machine
end
